-- ==== Sys2Proof/Word.lean ====
section
/-! DEFINITION. The widths of the block: 00_scope.md R6. -/

namespace Sys2Proof

/-- A packed pixel word, a buffer word, a word of one transfer: 16 bits (R6, R30). -/
abbrev Word := BitVec 16

/-- A pixel index, a count, a delay, a CSR number, a factor: 16 bits, unsigned (R6, R73). -/
abbrev Half := BitVec 16

/-- A channel as the host gives it: 8 bits (R6). -/
abbrev Channel := BitVec 8

/-- A channel as a packed word stores it: 5 bits (R6, R30). -/
abbrev Lane := BitVec 5

/-- A command word: 48 bits (R6, R70). -/
abbrev Command := BitVec 48

/-- A response word: 32 bits (R6, R78). -/
abbrev Response := BitVec 32

/-- A CSR as RDCSR presents it, the DATA field of a response: 24 bits (R32, R78). -/
abbrev Data := BitVec 24

end Sys2Proof
end

