-- ==== Sys2Proof/Syntax.lean ====
section
/-! DEFINITION. The fifteen commands of PXB-1: 30_encoding.md R74 and spec/opcode_table.json. -/

namespace Sys2Proof

/-- One constructor per row of the opcode table (R74). Every operand has exactly the width of its field (R73). -/
inductive Instr where
  /-- NOP (R185). -/
  | nop
  /-- INIT count (R180). -/
  | init (count : Half)
  /-- SETNUM n (R121). -/
  | setnum (n : Half)
  /-- CLEAR (R122). -/
  | clear
  /-- SHOW delay (R164). -/
  | showFrame (delay : Half)
  /-- SETRGB n, r, g, b (R123). -/
  | setrgb (n : Half) (r g b : Channel)
  /-- SETW n, word (R124). -/
  | setw (n : Half) (word : Word)
  /-- GETW n (R125). -/
  | getw (n : Half)
  /-- SCALE1 n, factor (R146). -/
  | scale1 (n : Half) (factor : Half)
  /-- SCALEALL factor (R147). -/
  | scaleall (factor : Half)
  /-- ENCODE r, g, b (R108). -/
  | encodeRgb (r g b : Channel)
  /-- DECODE word (R109). -/
  | decodeWord (word : Word)
  /-- SCALEW word, factor (R145). -/
  | scalew (word : Word) (factor : Half)
  /-- RDCSR csr (R186). -/
  | rdcsr (csr : Half)
  /-- WRCSR csr, value (R187). -/
  | wrcsr (csr : Half) (value : Data)
  deriving DecidableEq, Repr

/-- The mnemonic of the opcode table (R74). -/
def Instr.mnemonic : Instr → String
  | .nop => "NOP"
  | .init _ => "INIT"
  | .setnum _ => "SETNUM"
  | .clear => "CLEAR"
  | .showFrame _ => "SHOW"
  | .setrgb _ _ _ _ => "SETRGB"
  | .setw _ _ => "SETW"
  | .getw _ => "GETW"
  | .scale1 _ _ => "SCALE1"
  | .scaleall _ => "SCALEALL"
  | .encodeRgb _ _ _ => "ENCODE"
  | .decodeWord _ => "DECODE"
  | .scalew _ _ => "SCALEW"
  | .rdcsr _ => "RDCSR"
  | .wrcsr _ _ => "WRCSR"

end Sys2Proof
end

