-- ==== Sys2Proof/Decode.lean ====
section
/-! DEFINITION. The command word: its fields, the opcode map, the decoder (total, R77 steps 1 to 3) and the encoder
(30_encoding.md R70 to R77). -/

namespace Sys2Proof

/-- R70: OP = cmd[47:40]. -/
def opField (w : Command) : BitVec 8 := w.extractLsb' 40 8

/-- R70: A = cmd[39:24]. -/
def aField (w : Command) : Half := w.extractLsb' 24 16

/-- R70: B = cmd[23:0]. -/
def bField (w : Command) : Data := w.extractLsb' 0 24

/-- R71, the rgb reading: r = B[23:16]. -/
def bRed (b : Data) : Channel := b.extractLsb' 16 8

/-- R71, the rgb reading: g = B[15:8]. -/
def bGreen (b : Data) : Channel := b.extractLsb' 8 8

/-- R71, the rgb reading: b = B[7:0]. -/
def bBlue (b : Data) : Channel := b.extractLsb' 0 8

/-- R71, the half reading: h = B[15:0]. -/
def bHalf (b : Data) : Half := b.extractLsb' 0 16

/-- R71, the half reading: B[23:16], which must be 0. -/
def bHigh (b : Data) : BitVec 8 := b.extractLsb' 16 8

/-- The seven formats (R72). -/
inductive Format where
  | n | a | c | h | ac | ah | av
  deriving DecidableEq, Repr

/-- R72, R76: the fields the format reserves are 0. -/
def Format.reservedZero (f : Format) (a : Half) (b : Data) : Bool :=
  match f with
  | .n => a == 0 && b == 0
  | .a => b == 0
  | .c => a == 0
  | .h => a == 0 && bHigh b == 0
  | .ac => true
  | .ah => bHigh b == 0
  | .av => true

/-- The opcode map (R74): the format of the opcode and the command its operands spell (R73); none for a reserved
opcode (R75). -/
def opcodeMap (op : BitVec 8) (a : Half) (b : Data) : Option (Format × Instr) :=
  match op.toNat with
  | 0x00 => some (.n, .nop)
  | 0x01 => some (.a, .init a)
  | 0x02 => some (.a, .setnum a)
  | 0x03 => some (.n, .clear)
  | 0x04 => some (.a, .showFrame a)
  | 0x05 => some (.ac, .setrgb a (bRed b) (bGreen b) (bBlue b))
  | 0x06 => some (.ah, .setw a (bHalf b))
  | 0x07 => some (.a, .getw a)
  | 0x08 => some (.ah, .scale1 a (bHalf b))
  | 0x09 => some (.h, .scaleall (bHalf b))
  | 0x0A => some (.c, .encodeRgb (bRed b) (bGreen b) (bBlue b))
  | 0x0B => some (.a, .decodeWord a)
  | 0x0C => some (.ah, .scalew a (bHalf b))
  | 0x0D => some (.a, .rdcsr a)
  | 0x0E => some (.av, .wrcsr a b)
  | _ => none

/-- Why a word spells no command: both are answered with IllegalCommand (R75, R76). -/
inductive DecodeError where
  /-- OP from 0x0F to 0xFF (R75). -/
  | reservedOpcode (op : BitVec 8)
  /-- A 1 in a bit the format reserves (R76). -/
  | reservedField (op : BitVec 8)
  deriving DecidableEq, Repr

/-- The opcode byte, which is the information value of the IllegalCommand (R75, R76). -/
def DecodeError.op : DecodeError → BitVec 8
  | .reservedOpcode op => op
  | .reservedField op => op

/-- R77 steps (1) to (3): the opcode, then the reserved fields, then the operands. -/
def decode (w : Command) : Except DecodeError Instr :=
  match opcodeMap (opField w) (aField w) (bField w) with
  | none => .error (.reservedOpcode (opField w))
  | some (f, i) =>
    if f.reservedZero (aField w) (bField w) then .ok i else .error (.reservedField (opField w))

/-- The opcode of a command (R74). -/
def Instr.opcode : Instr → BitVec 8
  | .nop => 0x00
  | .init _ => 0x01
  | .setnum _ => 0x02
  | .clear => 0x03
  | .showFrame _ => 0x04
  | .setrgb _ _ _ _ => 0x05
  | .setw _ _ => 0x06
  | .getw _ => 0x07
  | .scale1 _ _ => 0x08
  | .scaleall _ => 0x09
  | .encodeRgb _ _ _ => 0x0A
  | .decodeWord _ => 0x0B
  | .scalew _ _ => 0x0C
  | .rdcsr _ => 0x0D
  | .wrcsr _ _ => 0x0E

/-- The A field of a command (R72, R73). -/
def Instr.aOperand : Instr → Half
  | .nop => 0
  | .init count => count
  | .setnum n => n
  | .clear => 0
  | .showFrame delay => delay
  | .setrgb n _ _ _ => n
  | .setw n _ => n
  | .getw n => n
  | .scale1 n _ => n
  | .scaleall _ => 0
  | .encodeRgb _ _ _ => 0
  | .decodeWord word => word
  | .scalew word _ => word
  | .rdcsr csr => csr
  | .wrcsr csr _ => csr

/-- R71, the rgb reading put together: r, g, b from the top. -/
def rgbData (r g b : Channel) : Data := r ++ g ++ b

/-- R71, the half reading put together: eight zero bits, then h. -/
def halfData (h : Half) : Data := 0#8 ++ h

/-- The B field of a command (R71, R72, R73). -/
def Instr.bOperand : Instr → Data
  | .nop => 0
  | .init _ => 0
  | .setnum _ => 0
  | .clear => 0
  | .showFrame _ => 0
  | .setrgb _ r g b => rgbData r g b
  | .setw _ word => halfData word
  | .getw _ => 0
  | .scale1 _ factor => halfData factor
  | .scaleall factor => halfData factor
  | .encodeRgb r g b => rgbData r g b
  | .decodeWord _ => 0
  | .scalew _ factor => halfData factor
  | .rdcsr _ => 0
  | .wrcsr _ value => value

/-- R82: a command's word is OP, A and B from the top. -/
def encode (i : Instr) : Command := i.opcode ++ i.aOperand ++ i.bOperand

/-- One row of spec/opcode_table.json: a word w spells the row's command exactly when w & mask = pattern (R74). -/
structure OpcodeRow where
  mnemonic : String
  pattern : Command
  mask : Command
  deriving DecidableEq, Repr

/-- spec/opcode_table.json, its fifteen rows in the table's order. -/
def opcodeTable : List OpcodeRow :=
  [⟨"NOP", 0x000000000000, 0xFFFFFFFFFFFF⟩,
   ⟨"INIT", 0x010000000000, 0xFF0000FFFFFF⟩,
   ⟨"SETNUM", 0x020000000000, 0xFF0000FFFFFF⟩,
   ⟨"CLEAR", 0x030000000000, 0xFFFFFFFFFFFF⟩,
   ⟨"SHOW", 0x040000000000, 0xFF0000FFFFFF⟩,
   ⟨"SETRGB", 0x050000000000, 0xFF0000000000⟩,
   ⟨"SETW", 0x060000000000, 0xFF0000FF0000⟩,
   ⟨"GETW", 0x070000000000, 0xFF0000FFFFFF⟩,
   ⟨"SCALE1", 0x080000000000, 0xFF0000FF0000⟩,
   ⟨"SCALEALL", 0x090000000000, 0xFFFFFFFF0000⟩,
   ⟨"ENCODE", 0x0A0000000000, 0xFFFFFF000000⟩,
   ⟨"DECODE", 0x0B0000000000, 0xFF0000FFFFFF⟩,
   ⟨"SCALEW", 0x0C0000000000, 0xFF0000FF0000⟩,
   ⟨"RDCSR", 0x0D0000000000, 0xFF0000FFFFFF⟩,
   ⟨"WRCSR", 0x0E0000000000, 0xFF0000000000⟩]

/-- The row whose command the word spells, if any (R74). -/
def OpcodeRow.spells (row : OpcodeRow) (w : Command) : Bool := w &&& row.mask == row.pattern

/-- What the decoder reads from the `nbits` low bits of `w`, numbered as the opcode table numbers them: one 48-bit
word, bit 0 its least significant bit (R7, R70). -/
def decodeTableWord (nbits w : Nat) : Option Instr :=
  (decode (BitVec.ofNat 48 (w % 2 ^ nbits))).toOption

end Sys2Proof
end

