-- ==== Sys2Proof/Config.lean ====
section
/-! DEFINITION. What an implementation fixes and what the spec leaves free: 00_scope.md R5, 92_eei_decisions.md (open
parameters). -/

namespace Sys2Proof

/-- The capacity C of the instance that `State.reset` describes. DESIGN CHOICE (log entry 3), unsafe for claims about
`State.reset` alone: the spec leaves C open (R5, D5) and 4 is the C of its own worked states (R87, 95_test_vectors.md).
Every step reads C from the state (`State.cap`), never from here, and `State.resetWith` takes any C. -/
def Config.capacity : Half := 4

/-- DELAY_UNIT (R5, D17): open, and no rule reads it (log entry 4). -/
opaque Config.delayUnit : Nat

/-- What the memory returns for a word that nothing has written: arbitrary bits, not promised the same twice (20_memory.md
R62, D20). A free value (log entry 2): the word address and the number of such reads made before this one. -/
opaque Config.neverWritten : Nat → Nat → Word

end Sys2Proof
end

