-- ==== Sys2Proof/Machine/State.lean ====
section
/-! DEFINITION. The state of the block (10_state.md R20), the record of a run (R35), and the outside agents' moves
(70_reset_and_hazards.md R242). -/

namespace Sys2Proof.Machine

/-- One word of BUF at a word address. The block never sees bytes (20_memory.md R52), so a cell holds a word (log
entry 1). -/
abbrev Cell := Nat × Word

/-- BUF as the words something has written, addresses strictly rising; an address not listed has never been written
(10_state.md R29, 20_memory.md R62). -/
abbrev Memory := List Cell

/-- SEQ.PHASE (10_state.md R27). -/
inductive Phase where
  | idle | rst0 | rst1 | pix | wait
  deriving DecidableEq, Repr

/-- The sequencer position SEQ = (PHASE, IDX, DLY, CNT) (10_state.md R27). -/
structure Seq where
  phase : Phase
  idx : BitVec 16
  dly : BitVec 16
  cnt : BitVec 20
  deriving DecidableEq, Repr

/-- An event of the wire trace (00_scope.md R12). -/
inductive WireEvent where
  /-- A successful transfer of a word. -/
  | word (w : Word)
  /-- A failed transfer of a word. -/
  | fail (w : Word)
  /-- A delay of d units. -/
  | delay (d : BitVec 16)
  deriving DecidableEq, Repr

/-- A move of an agent outside the block (R242; log entry 6). -/
inductive EnvMove where
  /-- The host presents a command word (30_encoding.md R85). -/
  | present (w : Command)
  /-- The host is ready for a response (30_encoding.md R85). -/
  | take
  /-- The transport is ready, with this value of `tx_fail` (43_serializer.md R160). -/
  | transport (fail : Bool)
  /-- The delay primitive raises `dly_done` (43_serializer.md R161). -/
  | delayOver
  /-- The buffer owner writes a word (20_memory.md R60). -/
  | ownerWrite (a : BitVec 16) (w : Word)
  /-- The buffer owner reads a word (20_memory.md R60). -/
  | ownerRead (a : BitVec 16)
  /-- The host asserts `rst` (70_reset_and_hazards.md R230). -/
  | rst
  /-- The host asserts `rst` while the next command executes, after it has made so many of its buffer writes and before
  its first transfer (R231, log entry 11). With no command to accept it is a plain `rst`. -/
  | rstDuring (writes : Nat)
  deriving DecidableEq, Repr

/-- The state. The fields from `buf` to `rsp` are the spec's (10_state.md R20, R24); `wire` and `taken` are the record of
the run (R35); `cmds`, `env` and `draws` are the model's own (log entries 2, 6, 7). -/
structure State where
  /-- BUF (R29). -/
  buf : Memory
  /-- NUMLEDS, CSR 0 (R22). -/
  numLeds : BitVec 16
  /-- CAP, CSR 1: the parameter C (R24). -/
  cap : BitVec 16
  /-- MODE, CSR 2: bit 1 SRND, bit 0 QRND (R25). -/
  mode : BitVec 2
  /-- ERR, CSR 3: INFO in 23:4, CAUSE in 3:0 (R26). -/
  err : BitVec 24
  /-- SEQ (R27). -/
  seq : Seq
  /-- The response produced and not yet taken (R34). -/
  rsp : Option Response
  /-- The wire trace so far, oldest first (R12). -/
  wire : List WireEvent
  /-- The responses the host has taken, oldest first (R12). -/
  taken : List Response
  /-- The command words the host holds at the command port, the next one first (R85). -/
  cmds : List Command
  /-- What the outside agents do next, in order of time (R242). -/
  env : List EnvMove
  /-- How many never-written words have been read: the argument of the free value (R62). -/
  draws : Nat
  deriving DecidableEq, Repr

/-- The ways a step can stop with a fault. -/
inductive Fault where
  /-- An access to BUF at a word address at or beyond C, which does not exist (20_memory.md R50, R56). Raised by every
  command and serializer step that reaches BUF, and by the buffer owner's moves. Safe: no run from reset makes one on
  the block's side, and the model stops where the spec gives no memory. -/
  | bufferAddress (a : Nat)
  deriving DecidableEq, Repr

/-- The ways a step can be refused. -/
inductive Refusal where
  /-- An instruction with no meaning yet. No arm of `exec` uses it. Safe: the model stops. -/
  | notModelled (mnemonic : String)
  /-- The buffer owner accesses BUF while the block is busy, which 93_implementation_defined.md U3 gives no meaning
  (20_memory.md R60, 70_reset_and_hazards.md R234). Raised by the owner's moves. Safe: the model stops. -/
  | ownerWhileBusy
  deriving DecidableEq, Repr

/-- The outcome of one step of this machine. -/
abbrev Result := Host.Outcome State Fault Refusal

/-- SEQ after reset: IDLE; the other fields are unspecified and never read in IDLE (R33), 0 here (log entry 5). -/
def Seq.reset : Seq := { phase := .idle, idx := 0, dly := 0, cnt := 0 }

/-- The state after power-up of a block of capacity `c` (10_state.md R33): BUF never written, nothing on the wire, no
command presented and no agent's move laid out yet (log entries 6, 7, 15). -/
def State.resetWith (c : BitVec 16) : State :=
  { buf := [], numLeds := 0, cap := c, mode := 0, err := 0, seq := Seq.reset, rsp := none,
    wire := [], taken := [], cmds := [], env := [], draws := 0 }

/-- The state after power-up of the instance with C = `Config.capacity` (R33; log entry 3). -/
def State.reset : State := State.resetWith Config.capacity

end Sys2Proof.Machine
end

