-- ==== Sys2Proof/Machine/Operands.lean ====
section
/-! DEFINITION. The pixel word and what the commands compute on it: fields and `pack` (10_state.md R30), the quantizer and
the expander (40_codec.md R100 to R106), the scaler (42_scaler.md R140 to R144). Every value is unsigned and every
product exact (00_scope.md R7, R8). -/

namespace Sys2Proof.Machine

/-- S(w) = w[15] (R30). -/
def startBit (w : Word) : BitVec 1 := w.extractLsb' 15 1

/-- G(w) = w[14:10] (R30). -/
def green (w : Word) : Lane := w.extractLsb' 10 5

/-- R(w) = w[9:5] (R30). -/
def red (w : Word) : Lane := w.extractLsb' 5 5

/-- B(w) = w[4:0] (R30). -/
def blue (w : Word) : Lane := w.extractLsb' 0 5

/-- pack(s, g, r, b): the start bit, then green, red, blue from the top (R30). -/
def pack (s : BitVec 1) (g r b : Lane) : Word := s ++ g ++ r ++ b

/-- A word is wire-valid when bit 15 is 1 (R31). -/
def wireValid (w : Word) : Bool := startBit w == 1

/-- The all-off pixel, 0x8000 (R31, R122). -/
def offPixel : Word := 0x8000

/-- 0x8000 | (w & 0x7FFF): the word with its start bit set (R124). -/
def withStartBit (w : Word) : Word := 0x8000 ||| (w &&& 0x7FFF)

/-- w & 0x7FFF: the word with its start bit masked off (R125). -/
def maskStartBit (w : Word) : Word := w &&& 0x7FFF

/-- quant(v, m): truncating when m is false (R100), nearest when m is true (R101). The quotient is at most 31. -/
def quant (v : Channel) (m : Bool) : Lane :=
  BitVec.ofNat 5 ((v.toNat * 31 + if m then 127 else 0) / 255)

/-- expand(c), rounded up (R103). The quotient is at most 255. -/
def expand (c : Lane) : Channel := BitVec.ofNat 8 ((c.toNat * 255 + 30) / 31)

/-- encode(r, g, b, m) = pack(1, quant(g, m), quant(r, m), quant(b, m)) (R105). -/
def encodePixel (r g b : Channel) (m : Bool) : Word := pack 1 (quant g m) (quant r m) (quant b m)

/-- decode(w) as the 24-bit DATA of a DECODE: expand of red, green, blue from the top (R106, R109). -/
def decodePixel (w : Word) : Data := expand (red w) ++ expand (green w) ++ expand (blue w)

/-- sc(c, F, s): the product, rounded half up when s is true and truncated when it is not, saturated at 31 (R141). -/
def scaleLane (c : Lane) (f : Half) (s : Bool) : Lane :=
  BitVec.ofNat 5 (min 31 ((c.toNat * f.toNat + if s then 128 else 0) / 256))

/-- scale(w, F, s): each lane by itself, bit 15 set (R142). -/
def scaleWord (w : Word) (f : Half) (s : Bool) : Word :=
  pack 1 (scaleLane (green w) f s) (scaleLane (red w) f s) (scaleLane (blue w) f s)

end Sys2Proof.Machine
end

