-- ==== Sys2Proof/Machine/Flags.lean ====
section
/-! DEFINITION. The status the block shows: the error codes and the response layout (30_encoding.md R78, R79), the fields
of MODE and ERR (10_state.md R25, R26), the two derived status bits and the output ports (R26, R28, 30_encoding.md R85,
43_serializer.md R160, R161). The block has no arithmetic flags (R28). -/

namespace Sys2Proof.Machine

/-- The four error causes (60_exceptions.md R201). -/
inductive ErrorCause where
  | indexOutOfRange
  | capacityViolation
  | transportFailure
  | illegalCommand
  deriving DecidableEq, Repr

/-- The status code of an error (R79, R201). -/
def ErrorCause.code : ErrorCause → BitVec 4
  | .indexOutOfRange => 1
  | .capacityViolation => 2
  | .transportFailure => 3
  | .illegalCommand => 4

/-- MODE.QRND, bit 0 (R25). -/
def State.qrnd (s : State) : Bool := s.mode.getLsbD 0

/-- MODE.SRND, bit 1 (R25). -/
def State.srnd (s : State) : Bool := s.mode.getLsbD 1

/-- ERR.CAUSE, bits 3:0 (R26). -/
def errCause (e : BitVec 24) : BitVec 4 := e.extractLsb' 0 4

/-- ERR.INFO, bits 23:4 (R26). -/
def errInfo (e : BitVec 24) : BitVec 20 := e.extractLsb' 4 20

/-- (info << 4) | code (R207): INFO above CAUSE. -/
def errRecord (code : BitVec 4) (info : BitVec 20) : BitVec 24 := info ++ code

/-- STATUS = rsp[31:28] (R78). -/
def rspStatus (r : Response) : BitVec 4 := r.extractLsb' 28 4

/-- DATA = rsp[23:0] (R78). -/
def rspData (r : Response) : Data := r.extractLsb' 0 24

/-- A response word: STATUS, four zero bits, DATA (R78). -/
def response (status : BitVec 4) (data : Data) : Response := status ++ 0#4 ++ data

/-- busy: a command is executing or its response has not been taken (R28). Between two steps a command is executing
exactly when a frame is in progress. -/
def State.busy (s : State) : Bool := s.seq.phase != .idle || s.rsp.isSome

/-- The output `err` (R26, R210). -/
def State.errOut (s : State) : Bool := errCause s.err != 0

/-- `cmd_ready`: only when idle (R85). -/
def State.cmdReady (s : State) : Bool := !s.busy

/-- The response port: `rsp_valid` with `rsp_data`, or nothing (R85). -/
def State.rspPort (s : State) : Option Response := s.rsp

/-- The delay port: `dly_req` with `dly_count`, or nothing (R161, R163). -/
def State.dlyPort (s : State) : Option (BitVec 16) :=
  match s.seq.phase with
  | .wait => some s.seq.dly
  | .idle => none
  | .rst0 => none
  | .rst1 => none
  | .pix => none

end Sys2Proof.Machine
end

