-- ==== Sys2Proof/Machine/Ops.lean ====
section
/-! DEFINITION. The operations the commands share: the buffer (20_memory.md R51), ending a command with a response or an
error (30_encoding.md R78, 60_exceptions.md R207), re-arming the error record (R208), and reset
(70_reset_and_hazards.md R230). -/

namespace Sys2Proof.Machine

/-! ## The buffer -/

/-- What has been written at an address; none if nothing has. -/
def Memory.read? : Memory → Nat → Option Word
  | [], _ => none
  | (b, w) :: rest, a => if a = b then some w else Memory.read? rest a

/-- The memory with `v` at `a` and every other word as it was (R51), addresses strictly rising. -/
def Memory.write : Memory → Nat → Word → Memory
  | [], a, v => [(a, v)]
  | (b, w) :: rest, a, v =>
    if a < b then (a, v) :: (b, w) :: rest
    else if a = b then (a, v) :: rest
    else (b, w) :: Memory.write rest a v

/-- Every address of `m` is above `a`. -/
def Memory.above (a : Nat) : Memory → Bool
  | [] => true
  | (b, _) :: rest => decide (a < b) && Memory.above a rest

/-- The canonical form: addresses strictly rising. An unlisted word reads as no fixed value, so no entry can repeat what
an unlisted one reads as. -/
def Memory.wf : Memory → Bool
  | [] => true
  | (a, _) :: rest => Memory.above a rest && Memory.wf rest

/-- MemRead(a, 1) (R51): the word last written; for a word nothing has written, the free value of this read (R62), and
the next such read draws anew. -/
def State.memRead (s : State) (a : Nat) : Word × State :=
  match Memory.read? s.buf a with
  | some w => (w, s)
  | none => (Config.neverWritten a s.draws, { s with draws := s.draws + 1 })

/-- MemWrite(a, 1, v) (R51). -/
def State.memWrite (s : State) (a : Nat) (v : Word) : State := { s with buf := Memory.write s.buf a v }

/-- The address exists: a < C (R50). -/
def State.addressable (s : State) (a : Nat) : Bool := a < s.cap.toNat

/-- The addresses 0 to n - 1 exist. -/
def State.allAddressable (s : State) (n : Nat) : Bool := n ≤ s.cap.toNat

/-- MemWrite(i, 1, v) for the `n` addresses from `i` up, ascending (R122). -/
def fillFrom (v : Word) : Nat → Nat → State → State
  | 0, _, s => s
  | n + 1, i, s => fillFrom v n (i + 1) (s.memWrite i v)

/-- MemRead(i, 1) then MemWrite(i, 1, f of it) (R146). -/
def updateWord (f : Word → Word) (i : Nat) (s : State) : State :=
  let r := s.memRead i
  r.2.memWrite i (f r.1)

/-- `updateWord` for the `n` addresses from `i` up, ascending (R147). -/
def updateFrom (f : Word → Word) : Nat → Nat → State → State
  | 0, _, s => s
  | n + 1, i, s => updateFrom f n (i + 1) (updateWord f i s)

/-! ## The end of a command -/

/-- respond(data): the command ends with status OK (00_scope.md R9, R78). -/
def respond (data : Data) (s : State) : State := { s with rsp := some (response 0 data) }

/-- raise E(info) (R207): the first error since the record was cleared is recorded in ERR, and the response carries the
code and the information value. Nothing else happens. -/
def raiseError (e : ErrorCause) (info : BitVec 20) (s : State) : State :=
  { s with
    err := if errCause s.err = 0 then errRecord e.code info else s.err
    rsp := some (response e.code (info.setWidth 24)) }

/-- What stands in the place of a return (R208): the error record is re-armed. -/
def clearError (s : State) : State := { s with err := 0 }

/-- The index check (41_buffer.md R120), then the access, whose address must exist. -/
def withIndex (n : Half) (s : State) (access : State → State) : Result :=
  if s.numLeds.toNat ≤ n.toNat then .next (raiseError .indexOutOfRange (n.setWidth 20) s)
  else if s.addressable n.toNat then .next (access s)
  else .fault (.bufferAddress n.toNat)

/-- The capacity check (41_buffer.md R121, 44_driver.md R180), then the rest of the command. -/
def withCapacity (n : Half) (s : State) (rest : State → State) : Result :=
  if s.cap.toNat < n.toNat then .next (raiseError .capacityViolation (n.setWidth 20) s)
  else .next (rest s)

/-- A batch over words 0 to NUMLEDS - 1, whose addresses must exist (20_memory.md R56). -/
def withBatch (s : State) (batch : State → State) : Result :=
  if s.allAddressable s.numLeds.toNat then .next (batch s) else .fault (.bufferAddress s.cap.toNat)

/-- IllegalCommand with the opcode byte as information value (R75, R76, R186, R187). -/
def raiseIllegal (op : BitVec 8) (s : State) : State := raiseError .illegalCommand (op.setWidth 20) s

/-! ## Reset -/

/-- `rst` (R230, R231): every piece of the block's state at its reset value; BUF, the capacity, the record of the run and
the outside agents are as they were (log entry 10). -/
def State.rst (s : State) : State :=
  { s with numLeds := 0, mode := 0, err := 0, seq := Seq.reset, rsp := none }

end Sys2Proof.Machine
end

