-- ==== Sys2Proof/Machine/Buffer.lean ====
section
/-! DEFINITION. SETNUM, CLEAR, SETRGB, SETW, GETW (41_buffer.md R121 to R125). -/

namespace Sys2Proof.Machine

/-- CSR.NUMLEDS <- n (R121). -/
def setNumLeds (n : Half) (s : State) : State := { s with numLeds := n }

/-- The first `n` words become the all-off pixel (R122, R180). -/
def clearWords (n : Nat) (s : State) : State := fillFrom offPixel n 0 s

/-- SETNUM n (R121). -/
def execSetnum (n : Half) (s : State) : Result :=
  withCapacity n s fun s => respond 0 (setNumLeds n s)

/-- CLEAR (R122). -/
def execClear (s : State) : Result :=
  withBatch s fun s => respond 0 (clearWords s.numLeds.toNat s)

/-- The buffer write of SETRGB (R123). -/
def storeRgb (n : Half) (r g b : Channel) (s : State) : State :=
  s.memWrite n.toNat (encodePixel r g b s.qrnd)

/-- SETRGB n, r, g, b (R123). -/
def execSetrgb (n : Half) (r g b : Channel) (s : State) : Result :=
  withIndex n s fun s => respond 0 (storeRgb n r g b s)

/-- The buffer write of SETW (R124). -/
def storeWord (n : Half) (word : Word) (s : State) : State := s.memWrite n.toNat (withStartBit word)

/-- SETW n, word (R124). -/
def execSetw (n : Half) (word : Word) (s : State) : Result :=
  withIndex n s fun s => respond 0 (storeWord n word s)

/-- GETW n (R125). -/
def execGetw (n : Half) (s : State) : Result :=
  withIndex n s fun s =>
    let r := s.memRead n.toNat
    respond ((maskStartBit r.1).setWidth 24) r.2

end Sys2Proof.Machine
end

