-- ==== Sys2Proof/Machine/Scaler.lean ====
section
/-! DEFINITION. SCALEW, SCALE1, SCALEALL (42_scaler.md R145 to R147). -/

namespace Sys2Proof.Machine

/-- SCALEW word, factor (R145). -/
def execScalew (word : Word) (factor : Half) (s : State) : Result :=
  .next (respond ((scaleWord word factor s.srnd).setWidth 24) s)

/-- The read and write of SCALE1 (R146). -/
def scaleOne (n : Half) (factor : Half) (s : State) : State :=
  updateWord (fun w => scaleWord w factor s.srnd) n.toNat s

/-- SCALE1 n, factor (R146). -/
def execScale1 (n : Half) (factor : Half) (s : State) : Result :=
  withIndex n s fun s => respond 0 (scaleOne n factor s)

/-- The reads and writes of SCALEALL over the first `n` words (R147). -/
def scaleWords (n : Nat) (factor : Half) (s : State) : State :=
  updateFrom (fun w => scaleWord w factor s.srnd) n 0 s

/-- SCALEALL factor (R147). -/
def execScaleall (factor : Half) (s : State) : Result :=
  withBatch s fun s => respond 0 (scaleWords s.numLeds.toNat factor s)

end Sys2Proof.Machine
end

