-- ==== Sys2Proof/Machine/Serializer.lean ====
section
/-! DEFINITION. The frame sequencer and SHOW (43_serializer.md R160 to R170). A frame is started by `startFrame`; each
transfer and each delay that ends is one later step of the block (R163). -/

namespace Sys2Proof.Machine

/-- start(d): SEQ <- (RST0, 0, d, 0) (R163). -/
def startFrame (d : BitVec 16) (s : State) : State :=
  { s with seq := { phase := .rst0, idx := 0, dly := d, cnt := 0 } }

/-- SHOW delay (R164): the frame is started; its response comes when the sequencer is done (log entry 22). -/
def execShow (delay : Half) (s : State) : Result := .next (startFrame delay s)

/-- PHASE <- p. -/
def State.withPhase (s : State) (p : Phase) : State := { s with seq := { s.seq with phase := p } }

/-- The wire trace grows by one event (R12). -/
def State.record (s : State) (e : WireEvent) : State := { s with wire := s.wire ++ [e] }

/-- finish: PHASE <- IDLE, status OK (R163). -/
def finishFrame (s : State) : State := respond 0 (s.withPhase .idle)

/-- abort: PHASE <- IDLE, TransportFailure(CNT) (R163, R167). -/
def abortFrame (s : State) : State := raiseError .transportFailure s.seq.cnt (s.withPhase .idle)

/-- advance: the last pixel finishes the frame, any other moves IDX on (R163). -/
def advanceFrame (s : State) : State :=
  if s.seq.idx.toNat + 1 = s.numLeds.toNat then finishFrame s
  else { s with seq := { s.seq with idx := s.seq.idx + 1, phase := .pix } }

/-- Transfer(w) that ended ok: Word(w) on the wire, CNT <- CNT + 1 (R160, R163). -/
def sentWord (w : Word) (s : State) : State :=
  let t := s.record (.word w)
  { t with seq := { t.seq with cnt := t.seq.cnt + 1 } }

/-- Transfer(w) that ended with fail: Fail(w) on the wire, then abort (R160, R167). -/
def failedWord (w : Word) (s : State) : State := abortFrame (s.record (.fail w))

/-- After the second zero word: an empty strip finishes, any other goes on to its first pixel (R163). -/
def afterHeader (s : State) : State :=
  if s.numLeds = 0 then finishFrame s
  else { s with seq := { s.seq with idx := 0, phase := .pix } }

/-- After a pixel word: a delay if one was asked for (R163). -/
def afterPixel (s : State) : State :=
  if s.seq.dly = 0 then advanceFrame s else s.withPhase .wait

/-- The transport ends a transfer with this outcome: the table of R163. With no transfer offered there is no hand-over
and nothing happens. The pixel word is read at this moment (R59, R169). -/
def transferStep (fail : Bool) (s : State) : Result :=
  match s.seq.phase with
  | .idle => .next s
  | .wait => .next s
  | .rst0 => .next (if fail then failedWord 0 s else (sentWord 0 s).withPhase .rst1)
  | .rst1 => .next (if fail then failedWord 0 s else afterHeader (sentWord 0 s))
  | .pix =>
    if s.addressable s.seq.idx.toNat then
      let r := s.memRead s.seq.idx.toNat
      .next (if fail then failedWord r.1 r.2 else afterPixel (sentWord r.1 r.2))
    else .fault (.bufferAddress s.seq.idx.toNat)

/-- The delay primitive ends a delay (R161, R163); with none asked for nothing happens. -/
def delayStep (s : State) : Result :=
  match s.seq.phase with
  | .wait => .next (advanceFrame (s.record (.delay s.seq.dly)))
  | .idle => .next s
  | .rst0 => .next s
  | .rst1 => .next s
  | .pix => .next s

/-- The transport port: `tx_valid` with `tx_data`, or nothing (R160, R163). -/
def State.txPort (s : State) : Option Word :=
  match s.seq.phase with
  | .idle => none
  | .wait => none
  | .rst0 => some 0
  | .rst1 => some 0
  | .pix => some (s.memRead s.seq.idx.toNat).1

end Sys2Proof.Machine
end

