-- ==== Sys2Proof/Machine/Agents.lean ====
section
/-! DEFINITION. What happens next: the block accepts the waiting command when it is idle, and otherwise the outside agents
make their next move (30_encoding.md R85, 70_reset_and_hazards.md R231, R242; log entries 6, 7, 11, 20). -/

namespace Sys2Proof.Machine

/-- The host takes the pending response (R85); with none pending there is no hand-over and nothing happens. -/
def takeResponse (s : State) : State :=
  match s.rsp with
  | some r => { s with rsp := none, taken := s.taken ++ [r] }
  | none => s

/-- The host presents one more command word, which waits until the block accepts it (R85). -/
def presentCommand (w : Command) (s : State) : State := { s with cmds := s.cmds ++ [w] }

/-- The buffer owner's access (20_memory.md R60): only while the block is idle, only at an address that exists. -/
def ownerAccess (a : BitVec 16) (s : State) (access : State → State) : Result :=
  if s.busy then .refused .ownerWhileBusy
  else if s.addressable a.toNat then .next (access s)
  else .fault (.bufferAddress a.toNat)

/-- One move of an outside agent (R242). -/
def agentMove (m : EnvMove) (s : State) : Result :=
  match m with
  | .present w => .next (presentCommand w s)
  | .take => .next (takeResponse s)
  | .transport fail => transferStep fail s
  | .delayOver => delayStep s
  | .ownerWrite a w => ownerAccess a s fun s => s.memWrite a.toNat w
  | .ownerRead a => ownerAccess a s fun s => s
  | .rst => .next s.rst
  | .rstDuring _ => .next s.rst

/-- The agents' next move; with none the machine waits as it is (43_serializer.md R170, log entry 16). -/
def agentsStep (s : State) : Result :=
  match s.env with
  | [] => .next s
  | m :: rest => agentMove m { s with env := rest }

/-- A single buffer write is made when at least one is allowed, the index check passes and the address exists. -/
def abandonedAccess (n : Half) (writes : Nat) (s : State) (access : State → State) : State :=
  if writes ≠ 0 ∧ n.toNat < s.numLeds.toNat ∧ s.addressable n.toNat then access s else s

/-- The state in which reset finds a command that has made its first `writes` buffer writes (R231). A command with fewer
has made them all. Words whose address does not exist are not written. -/
def partlyDone (i : Instr) (writes : Nat) (s : State) : State :=
  match i with
  | .init count =>
    if s.cap.toNat < count.toNat then s else clearWords (min writes count.toNat) s
  | .clear => clearWords (min writes (min s.numLeds.toNat s.cap.toNat)) s
  | .scaleall factor => scaleWords (min writes (min s.numLeds.toNat s.cap.toNat)) factor s
  | .setrgb n r g b => abandonedAccess n writes s (storeRgb n r g b)
  | .setw n word => abandonedAccess n writes s (storeWord n word)
  | .scale1 n factor => abandonedAccess n writes s (scaleOne n factor)
  | .nop => s
  | .setnum _ => s
  | .showFrame _ => s
  | .getw _ => s
  | .encodeRgb _ _ _ => s
  | .decodeWord _ => s
  | .scalew _ _ => s
  | .rdcsr _ => s
  | .wrcsr _ _ => s

/-- Reset during a command (R231): the buffer writes already made stay, there is no response. A word that spells no
command has no buffer write. -/
def abandonCommand (w : Command) (writes : Nat) (s : State) : State :=
  match decode w with
  | .ok i => (partlyDone i writes s).rst
  | .error _ => s.rst

/-- What the machine does next. -/
inductive Action where
  /-- The accepted command is executed. -/
  | run (i : Instr) (s : State)
  /-- Anything else, with its outcome. -/
  | settled (r : Result)

/-- An accepted word (R77): a command is executed; a word that spells none is answered with IllegalCommand (R75, R76). -/
def acceptCommand (w : Command) (s : State) : Action :=
  match decode w with
  | .ok i => .run i s
  | .error e => .settled (.next (raiseIllegal e.op s))

/-- The next thing that happens: an idle block accepts the waiting command at once (R85), unless the host resets it
during that command; otherwise the agents move. -/
def nextAction (s : State) : Action :=
  if s.busy then .settled (agentsStep s)
  else
    match s.cmds with
    | [] => .settled (agentsStep s)
    | w :: waiting =>
      match s.env with
      | .rstDuring k :: moves => .settled (.next (abandonCommand w k { s with cmds := waiting, env := moves }))
      | _ => acceptCommand w { s with cmds := waiting }

/-- The move is a reset during the next command. -/
def EnvMove.isRstDuring : EnvMove → Bool
  | .rstDuring _ => true
  | .present _ => false
  | .take => false
  | .transport _ => false
  | .delayOver => false
  | .ownerWrite _ _ => false
  | .ownerRead _ => false
  | .rst => false

/-- The block made idle with this word at its command port, and no reset laid out during it: the next step accepts it
(log entry 15). -/
def presentAlone (w : Command) (s : State) : State :=
  { s with
    cmds := w :: s.cmds
    env := s.env.dropWhile EnvMove.isRstDuring
    seq := { s.seq with phase := .idle }
    rsp := none }

end Sys2Proof.Machine
end

