-- ==== Sys2Proof/Machine/Codec.lean ====
section
/-! DEFINITION. ENCODE and DECODE (40_codec.md R108, R109). -/

namespace Sys2Proof.Machine

/-- ENCODE r, g, b (R108). -/
def execEncode (r g b : Channel) (s : State) : Result :=
  .next (respond ((encodePixel r g b s.qrnd).setWidth 24) s)

/-- DECODE word (R109). -/
def execDecode (word : Word) (s : State) : Result := .next (respond (decodePixel word) s)

end Sys2Proof.Machine
end

