-- ==== Sys2Proof/Machine/Driver.lean ====
section
/-! DEFINITION. INIT (44_driver.md R180). -/

namespace Sys2Proof.Machine

/-- INIT count (R180): the capacity check, NUMLEDS, the clearing, then the start of a frame without delay, whose end is
the command's response (log entry 22). MODE and ERR stay. -/
def execInit (count : Half) (s : State) : Result :=
  withCapacity count s fun s => startFrame 0 (clearWords count.toNat (setNumLeds count s))

end Sys2Proof.Machine
end

