-- ==== Sys2Proof/Machine/System.lean ====
section
/-! DEFINITION. NOP, RDCSR, WRCSR (45_system.md R185 to R187). -/

namespace Sys2Proof.Machine

/-- The four registers of 10_state.md R32. -/
inductive Csr where
  | numLeds | cap | mode | err
  deriving DecidableEq, Repr

/-- The register a CSR number names; none above 3 (R32). -/
def csrOfNumber (n : Half) : Option Csr :=
  match n.toNat with
  | 0 => some .numLeds
  | 1 => some .cap
  | 2 => some .mode
  | 3 => some .err
  | _ => none

/-- A register as RDCSR presents it: 24 bits, unused high bits zero (R32, R186). -/
def csrValue (c : Csr) (s : State) : Data :=
  match c with
  | .numLeds => s.numLeds.setWidth 24
  | .cap => s.cap.setWidth 24
  | .mode => s.mode.setWidth 24
  | .err => s.err

/-- NOP (R185). -/
def execNop (s : State) : Result := .next (respond 0 s)

/-- RDCSR csr (R186). -/
def execRdcsr (csr : Half) (s : State) : Result :=
  match csrOfNumber csr with
  | some c => .next (respond (csrValue c s) s)
  | none => .next (raiseIllegal 0x0D s)

/-- CSR.MODE <- B[1:0] (R187). -/
def setMode (value : Data) (s : State) : State := { s with mode := value.setWidth 2 }

/-- WRCSR csr, value (R187). -/
def execWrcsr (csr : Half) (value : Data) (s : State) : Result :=
  match csrOfNumber csr with
  | some .mode =>
    if value.extractLsb' 2 22 = 0 then .next (respond 0 (setMode value s)) else .next (raiseIllegal 0x0E s)
  | some .err => if value = 0 then .next (respond 0 (clearError s)) else .next (raiseIllegal 0x0E s)
  | some .numLeds => .next (raiseIllegal 0x0E s)
  | some .cap => .next (raiseIllegal 0x0E s)
  | none => .next (raiseIllegal 0x0E s)

end Sys2Proof.Machine
end

