-- ==== Sys2Proof/Machine/Dispatch.lean ====
section
/-! DEFINITION. The meaning of each command, one arm per constructor of Instr (30_encoding.md R74). -/

namespace Sys2Proof.Machine

def exec (i : Instr) (s : State) : Host.Outcome State Fault Refusal :=
  match i with
  | .nop => Sys2Proof.Machine.execNop s
  | .init count => Sys2Proof.Machine.execInit count s
  | .setnum n => Sys2Proof.Machine.execSetnum n s
  | .clear => Sys2Proof.Machine.execClear s
  | .showFrame delay => Sys2Proof.Machine.execShow delay s
  | .setrgb n r g b => Sys2Proof.Machine.execSetrgb n r g b s
  | .setw n word => Sys2Proof.Machine.execSetw n word s
  | .getw n => Sys2Proof.Machine.execGetw n s
  | .scale1 n factor => Sys2Proof.Machine.execScale1 n factor s
  | .scaleall factor => Sys2Proof.Machine.execScaleall factor s
  | .encodeRgb r g b => Sys2Proof.Machine.execEncode r g b s
  | .decodeWord word => Sys2Proof.Machine.execDecode word s
  | .scalew word factor => Sys2Proof.Machine.execScalew word factor s
  | .rdcsr csr => Sys2Proof.Machine.execRdcsr csr s
  | .wrcsr csr value => Sys2Proof.Machine.execWrcsr csr value s

end Sys2Proof.Machine
end

