-- ==== Sys2Proof/Machine/Step.lean ====
section
/-! DEFINITION. One step: a command executed up to its response or the start of its frame, or one move of an outside
agent, with what the serializer does on it (43_serializer.md R163). -/

namespace Sys2Proof.Machine

/-- One step of the machine. -/
def step (s : State) : Host.Outcome State Fault Refusal :=
  match nextAction s with
  | .run i t => exec i t
  | .settled r => r

/-- The state in which the next step accepts the command whose bits are `w` (30_encoding.md R70; log entry 15). -/
def State.withFetchWord (s : State) (nbits w : Nat) : State :=
  presentAlone (BitVec.ofNat 48 (w % 2 ^ nbits)) s

end Sys2Proof.Machine
end

