-- ==== Sys2Proof/Assembly.lean ====
section
/-! DEFINITION. How a host writes commands down: the assembler line of a command (30_encoding.md R82) and the ten
pseudo-commands (R83). Neither is state or behaviour of the block; no step reads this file. -/

namespace Sys2Proof

/-- R82: the mnemonic, then the operands in the order of the opcode map's operands column, in decimal. -/
def Instr.line : Instr → String
  | .nop => "NOP"
  | .init count => "INIT " ++ toString count.toNat
  | .setnum n => "SETNUM " ++ toString n.toNat
  | .clear => "CLEAR"
  | .showFrame delay => "SHOW " ++ toString delay.toNat
  | .setrgb n r g b =>
    "SETRGB " ++ toString n.toNat ++ ", " ++ toString r.toNat ++ ", " ++ toString g.toNat ++ ", " ++ toString b.toNat
  | .setw n word => "SETW " ++ toString n.toNat ++ ", " ++ toString word.toNat
  | .getw n => "GETW " ++ toString n.toNat
  | .scale1 n factor => "SCALE1 " ++ toString n.toNat ++ ", " ++ toString factor.toNat
  | .scaleall factor => "SCALEALL " ++ toString factor.toNat
  | .encodeRgb r g b => "ENCODE " ++ toString r.toNat ++ ", " ++ toString g.toNat ++ ", " ++ toString b.toNat
  | .decodeWord word => "DECODE " ++ toString word.toNat
  | .scalew word factor => "SCALEW " ++ toString word.toNat ++ ", " ++ toString factor.toNat
  | .rdcsr csr => "RDCSR " ++ toString csr.toNat
  | .wrcsr csr value => "WRCSR " ++ toString csr.toNat ++ ", " ++ toString value.toNat

/-- The pseudo-commands of R83. -/
inductive PseudoCommand where
  | construct (count : Half)
  | setMode (m : Data)
  | clrErr
  | getNum
  | getCap
  | getMode
  | getErr
  | off (n : Half)
  | setBrightness (n factor : Half)
  | setBrightnessAll (factor : Half)
  deriving DecidableEq, Repr

/-- The one command each pseudo-command stands for (R83). -/
def PseudoCommand.expansion : PseudoCommand → Instr
  | .construct count => .init count
  | .setMode m => .wrcsr 2 m
  | .clrErr => .wrcsr 3 0
  | .getNum => .rdcsr 0
  | .getCap => .rdcsr 1
  | .getMode => .rdcsr 2
  | .getErr => .rdcsr 3
  | .off n => .setw n 0
  | .setBrightness n factor => .scale1 n factor
  | .setBrightnessAll factor => .scaleall factor

end Sys2Proof
end

