-- ==== Sys2Proof/Formulas.lean ====
section
/-! DEFINITION. The spec's formulas over plain numbers, written once more and apart from the machine's bit-level
definitions, for statements to compare the machine with (40_codec.md, 42_scaler.md). `m` is the mode bit, 0 or 1. -/

namespace Sys2Proof.Formula

/-- The 5-bit field of a word that begins at bit `k`: 10 green, 5 red, 0 blue (10_state.md R30). -/
def lane (w : Word) (k : Nat) : Nat := w.toNat / 2 ^ k % 32

/-- v * 31 div 255, or (v * 31 + 127) div 255 (R100, R101). -/
def quant (v : Channel) (m : Nat) : Nat := (v.toNat * 31 + 127 * m) / 255

/-- 0x8000 | g << 10 | r << 5 | b of the quantized channels (R105). -/
def encode (r g b : Channel) (m : Nat) : Nat := 32768 + 1024 * quant g m + 32 * quant r m + quant b m

/-- (c * 255 + 30) div 31 (R103). -/
def expand (c : Nat) : Nat := (c * 255 + 30) / 31

/-- r << 16 | g << 8 | b of the expanded lanes (R106, R109). -/
def decode (w : Word) : Nat := 65536 * expand (lane w 5) + 256 * expand (lane w 10) + expand (lane w 0)

/-- min(31, (c * F + 128 m) >> 8) (R141). -/
def scaleLane (c : Nat) (f : Half) (m : Nat) : Nat := min 31 ((c * f.toNat + 128 * m) / 256)

/-- 0x8000 and the three scaled lanes (R142). -/
def scale (w : Word) (f : Half) (m : Nat) : Nat :=
  32768 + 1024 * scaleLane (lane w 10) f m + 32 * scaleLane (lane w 5) f m + scaleLane (lane w 0) f m

end Sys2Proof.Formula
end

