-- ==== Sys2Proof/Safety.lean ====
section
/-! DEFINITION. What a legal state and a final state are (10_state.md R23, R27, R34, 70_reset_and_hazards.md R241), what a
frame puts on the wire (43_serializer.md R162), and runs of several steps. -/

namespace Sys2Proof.Machine

/-- ERR holds no record, or a code from 1 to 4 (10_state.md R26, 60_exceptions.md R201). -/
abbrev errLegal (e : BitVec 24) : Prop := (errCause e).toNat ≤ 4 ∧ (errCause e = 0 → e = 0)

/-- A response has a status from 0 to 4 and zero bits 27:24 (30_encoding.md R78, R79). -/
abbrev rspLegal (r : Response) : Prop := (rspStatus r).toNat ≤ 4 ∧ r.extractLsb' 24 4 = 0

/-- Where the sequencer can be in a frame of `n` pixels (R163), with the count of R204: in PIX the two zero words and the
pixels below IDX have been sent, in WAIT the pixel IDX too. -/
abbrev seqLegal (n : Nat) (q : Seq) : Prop :=
  match q.phase with
  | .idle => True
  | .rst0 => q.cnt = 0
  | .rst1 => q.cnt = 1
  | .pix => q.idx.toNat < n ∧ q.cnt.toNat = q.idx.toNat + 2
  | .wait => q.idx.toNat < n ∧ q.cnt.toNat = q.idx.toNat + 3 ∧ q.dly ≠ 0

/-- BUF is in its canonical form and lists only addresses below C (10_state.md R29, 20_memory.md R56). -/
abbrev bufLegal (c : Nat) (m : Memory) : Prop := Memory.wf m = true ∧ ∀ cell ∈ m, cell.1 < c

/-- The invariant: BUF legal, 1 <= C (00_scope.md R5), NUMLEDS <= C (R23), ERR and every response legal, the sequencer
legal, and no response pending during a frame (R34, R168). -/
abbrev State.Inv (s : State) : Prop :=
  bufLegal s.cap.toNat s.buf ∧ 1 ≤ s.cap.toNat ∧ s.numLeds.toNat ≤ s.cap.toNat ∧ errLegal s.err ∧
  (∀ r ∈ s.rsp, rspLegal r) ∧ (∀ r ∈ s.taken, rspLegal r) ∧ seqLegal s.numLeds.toNat s.seq ∧
  (s.seq.phase ≠ .idle → s.rsp = none)

/-- The block accepts the word `w` in this step (30_encoding.md R85): it is idle, `w` is the next word the host holds, and
no reset is laid out during the command. -/
abbrev State.accepts (s : State) (w : Command) (waiting : List Command) : Prop :=
  s.busy = false ∧ s.cmds = w :: waiting ∧ ∀ k moves, s.env ≠ .rstDuring k :: moves

/-- From `s`, a command ended with this status code and information value and did nothing else (60_exceptions.md R207,
R209): the response, and ERR if it held no record. -/
abbrev failsWith (code info : Nat) (s t : State) : Prop :=
  t.rsp = some (BitVec.ofNat 32 (code * 2 ^ 28 + info)) ∧
  (errCause s.err = 0 → t.err = BitVec.ofNat 24 (info * 16 + code)) ∧
  (errCause s.err ≠ 0 → t.err = s.err) ∧
  t = { s with err := t.err, rsp := t.rsp }

/-- The move is the host's presenting of a command word. -/
def EnvMove.isPresent : EnvMove → Bool
  | .present _ => true
  | .take => false
  | .transport _ => false
  | .delayOver => false
  | .ownerWrite _ _ => false
  | .ownerRead _ => false
  | .rst => false
  | .rstDuring _ => false

/-- The command words of the run that the block has not accepted yet: those that wait at the port, and those that the host
has still to present (log entry 25). -/
def State.commandsLeft (s : State) : Bool := !s.cmds.isEmpty || s.env.any EnvMove.isPresent

/-- A final state (R241): the block is idle with no response pending and no command of the run is left (log entry 25), so
in a run without reset the response of the last command has been taken. DESIGN CHOICE (log entry 26): R241 does not treat
reset; a state in which a reset abandoned the last command, so that its response was dropped or never produced, is called
final too. -/
def State.final (s : State) : Bool := !s.busy && !s.commandsLeft

/-- The command writes BUF when its checks pass (20_memory.md R50). -/
def writesBuffer : Instr → Bool
  | .init _ => true
  | .clear => true
  | .setrgb _ _ _ _ => true
  | .setw _ _ => true
  | .scale1 _ _ => true
  | .scaleall _ => true
  | .nop => false
  | .setnum _ => false
  | .showFrame _ => false
  | .getw _ => false
  | .encodeRgb _ _ _ => false
  | .decodeWord _ => false
  | .scalew _ _ => false
  | .rdcsr _ => false
  | .wrcsr _ _ => false

/-- `k` steps, stopping at the first fault or refusal. -/
def runFor : Nat → State → Result
  | 0, s => .next s
  | k + 1, s =>
    match step s with
    | .next t => runFor k t
    | .fault r => .fault r
    | .refused r => .refused r

/-- SCALE1 of the words from `i` up, `k` of them, one command after the other. -/
def scaleOneByOne (f : Half) : Nat → Nat → State → Result
  | 0, _, s => .next s
  | k + 1, i, s =>
    match exec (.scale1 (BitVec.ofNat 16 i) f) s with
    | .next t => scaleOneByOne f k (i + 1) t
    | .fault r => .fault r
    | .refused r => .refused r

/-- What one pixel word puts on the wire (R162). -/
def pixelTrace (d : BitVec 16) (w : Word) : List WireEvent :=
  if d = 0 then [.word w] else [.word w, .delay d]

/-- What a frame of these words with delay operand `d` puts on the wire when every transfer is ok (R162). -/
def frameTrace (d : BitVec 16) (ws : List Word) : List WireEvent :=
  [.word 0, .word 0] ++ ws.flatMap (pixelTrace d)

/-- What the transport and the delay primitive do for one pixel word that is sent. -/
def pixelAnswers (d : BitVec 16) : List EnvMove :=
  if d = 0 then [.transport false] else [.transport false, .delayOver]

/-- What the transport and the delay primitive do for `n` pixel words. -/
def pixelsAnswers (d : BitVec 16) : Nat → List EnvMove
  | 0 => []
  | n + 1 => pixelAnswers d ++ pixelsAnswers d n

/-- What they do for a whole frame of `n` pixels in which every transfer is ok. -/
def frameAnswers (d : BitVec 16) (n : Nat) : List EnvMove :=
  [.transport false, .transport false] ++ pixelsAnswers d n

/-- `ws` are the words of BUF below their number: a word that something has written stands in its place, any word at all
in the place of one that nothing has written (20_memory.md R62, 43_serializer.md R169). -/
def bufferHolds (m : Memory) (ws : List Word) : Prop :=
  ∀ i : Nat, ∀ w v : Word, ws[i]? = some w → Memory.read? m i = some v → w = v

end Sys2Proof.Machine
end

