-- ==== Sys2Proof/Certificates/Slice0/Obligations.lean ====
section
/-! DEFINITION. The statements for the provers. Each docstring names the rule or the section of spec/ it rests on, and the
log entry where a clause is the model's choice. `NUMLEDS <= C` stands as a premise where a command reaches BUF: it is part
of the invariant that `InvariantIsKeptByEveryStep` states. -/

open Sys2Proof Sys2Proof.Machine

/-! ## Command words (30_encoding.md) -/

/-- R70 to R74, R82: the decoder reads every command back from its word, with every operand at every value. -/
def Obligations.DecodeReadsBackEveryEncodedCommand : Prop :=
  ∀ i : Instr, decode (encode i) = .ok i

/-- R70, R72: a command has one word: the word it was decoded from is its encoding, no bit ignored. -/
def Obligations.EncodeReproducesEveryDecodedWord : Prop :=
  ∀ (w : Command) (i : Instr), decode w = .ok i → encode i = w

/-- R74, R76: a word decodes to a row's command exactly when it spells the row; no word spells two rows; a word that
spells none is illegal. -/
def Obligations.DecoderAgreesWithTheOpcodeTable : Prop :=
  ∀ w : Command,
    (∀ row ∈ opcodeTable, row.spells w = true ↔ ∃ i, decode w = .ok i ∧ i.mnemonic = row.mnemonic) ∧
    (∀ row ∈ opcodeTable, ∀ row' ∈ opcodeTable, row.spells w = true → row'.spells w = true → row = row') ∧
    ((∀ row ∈ opcodeTable, row.spells w = false) ↔ ∃ e, decode w = .error e)

/-- R87: a few of the spec's own worked words, as sanity. -/
def Obligations.WorkedWordsDecode : Prop :=
  decode 0x000000000000 = .ok .nop ∧
  decode 0x040000000000 = .ok (.showFrame 0) ∧
  decode 0x050001FF8000 = .ok (.setrgb 1 255 128 0) ∧
  decode 0x080000000080 = .ok (.scale1 0 0x0080) ∧
  decode 0x0CC20F000180 = .ok (.scalew 0xC20F 0x0180) ∧
  decode 0x0E0002000001 = .ok (.wrcsr 2 1) ∧
  decode 0x0F0000000000 = .error (.reservedOpcode 0x0F)

/-- R77, R86: an idle block that is offered a word which spells a command executes that command, on the state without
the word at the port. -/
def Obligations.StepRunsTheDecodedCommand : Prop :=
  ∀ (s : State) (w : Command) (waiting : List Command) (i : Instr),
    s.accepts w waiting → decode w = .ok i → step s = exec i { s with cmds := waiting }

/-- R75: OP from 0x0F to 0xFF raises IllegalCommand with info = OP, whatever A and B hold. -/
def Obligations.ReservedOpcodeIsIllegal : Prop :=
  ∀ (s : State) (w : Command) (waiting : List Command),
    s.accepts w waiting → 0x0F ≤ w.toNat / 2 ^ 40 →
    ∃ t, step s = .next t ∧ failsWith 4 (w.toNat / 2 ^ 40) { s with cmds := waiting } t

/-- R76: a 1 in a bit the format reserves raises IllegalCommand with info = OP and nothing else happens; A is reserved in
formats N, C, H, B in N and A, the high byte of B in H and AH; bit 15 of SETW's operand is accepted and discarded. -/
def Obligations.ReservedFieldIsIllegal : Prop :=
  (∀ (s : State) (w : Command) (waiting : List Command),
    s.accepts w waiting →
    (w.toNat / 2 ^ 40 ∈ [0x00, 0x03, 0x09, 0x0A] ∧ w.toNat / 2 ^ 24 % 2 ^ 16 ≠ 0) ∨
    (w.toNat / 2 ^ 40 ∈ [0x00, 0x01, 0x02, 0x03, 0x04, 0x07, 0x0B, 0x0D] ∧ w.toNat % 2 ^ 24 ≠ 0) ∨
    (w.toNat / 2 ^ 40 ∈ [0x06, 0x08, 0x09, 0x0C] ∧ w.toNat / 2 ^ 16 % 2 ^ 8 ≠ 0) →
    ∃ t, step s = .next t ∧ failsWith 4 (w.toNat / 2 ^ 40) { s with cmds := waiting } t) ∧
  decode 0x060000008421 = .ok (.setw 0 0x8421) ∧
  (∀ (n : Half) (word : Word) (s : State),
    decode (encode (.setw n (word ||| 0x8000))) = .ok (.setw n (word ||| 0x8000)) ∧
    exec (.setw n (word ||| 0x8000)) s = exec (.setw n word) s)

/-! ## Accepting, answering, failing (30_encoding.md R85, 60_exceptions.md) -/

/-- R85: while busy the block accepts no command; a word presented, at any time, waits behind the others, neither lost nor
executed early. (A word that waits at an idle block is accepted before the next move is made: log entry 20.) -/
def Obligations.BusyBlockAcceptsNoCommand : Prop :=
  (∀ s t : State, s.busy = true → (∀ w moves, s.env ≠ .present w :: moves) → step s = .next t → t.cmds = s.cmds) ∧
  (∀ (s : State) (w : Command) (moves : List EnvMove), s.busy = true ∨ s.cmds = [] → s.env = .present w :: moves →
    step s = .next { s with cmds := s.cmds ++ [w], env := moves })

/-- R28, R85: every accepted word makes the block busy; no response is handed over by it, and no move of an outside agent
is used up. -/
def Obligations.AcceptedCommandMakesTheBlockBusy : Prop :=
  ∀ (s t : State) (w : Command) (waiting : List Command),
    s.accepts w waiting → step s = .next t → t.busy = true ∧ t.taken = s.taken ∧ t.cmds = waiting ∧ t.env = s.env

/-- R85, R28: the host takes the pending response, once, and nothing else changes. -/
def Obligations.ResponseIsHandedOverOnce : Prop :=
  ∀ (s : State) (r : Response) (moves : List EnvMove),
    s.rsp = some r → s.env = .take :: moves →
    step s = .next { s with rsp := none, taken := s.taken ++ [r], env := moves }

/-- R207: raising an error records it if ERR is clear, answers with status and info, and does nothing else. -/
def Obligations.RaisedErrorIsRecordedAndAnswered : Prop :=
  ∀ (e : ErrorCause) (info : BitVec 20) (s : State),
    failsWith e.code.toNat info.toNat s (raiseError e info s)

/-- R200: a command that answers with an error has no effect on BUF, NUMLEDS, MODE or the wire: it changes only the
response and, if clear, ERR. (A TransportFailure comes from a later step of a frame, not from the command's acceptance.) -/
def Obligations.FailingCommandHasNoOtherEffect : Prop :=
  ∀ (i : Instr) (s t : State) (r : Response),
    s.rsp = none → exec i s = .next t → t.rsp = some r → rspStatus r ≠ 0 →
    t = { s with err := t.err, rsp := t.rsp } ∧ (errCause s.err ≠ 0 → t.err = s.err)

/-- R26, R208, R210: a recorded error stays until WRCSR ERR, 0 or reset. -/
def Obligations.ErrorRecordIsClearedOnlyByWrcsrOrReset : Prop :=
  ∀ s t : State, errCause s.err ≠ 0 → step s = .next t → t.err ≠ s.err →
    t.err = 0 ∧
    ((∃ w waiting, s.accepts w waiting ∧ decode w = .ok (.wrcsr 3 0)) ∨
     (∃ moves, s.env = .rst :: moves) ∨ (∃ k moves, s.env = .rstDuring k :: moves))

/-- R200, R209: every command is answered or starts its frame, whatever ERR holds, when NUMLEDS <= C. -/
def Obligations.EveryCommandAnswersANextState : Prop :=
  ∀ (i : Instr) (s : State), s.numLeds.toNat ≤ s.cap.toNat → ∃ t, exec i s = .next t ∧ t.busy = true

/-! ## The codec (40_codec.md) -/

/-- R100, R101, R102: both quantizers are their formulas, monotone, and at most one apart; 255 alone truncates to 31. -/
def Obligations.QuantizerIsLinearAndMonotone : Prop :=
  (∀ v : Channel, (quant v false).toNat = v.toNat * 31 / 255 ∧ (quant v true).toNat = (v.toNat * 31 + 127) / 255) ∧
  (∀ (v v' : Channel) (m : Bool), v.toNat ≤ v'.toNat → (quant v m).toNat ≤ (quant v' m).toNat) ∧
  (∀ v : Channel, (quant v false).toNat ≤ (quant v true).toNat ∧ (quant v true).toNat ≤ (quant v false).toNat + 1) ∧
  (∀ v : Channel, quant v false = 31 ↔ v = 255) ∧ (∀ v : Channel, quant v true = 31 ↔ 251 ≤ v.toNat)

/-- R107, its laws L1 to L6 over all arguments. -/
def Obligations.CodecLawsHold : Prop :=
  (∀ (r g b : Channel) (m : Bool), (encodePixel r g b m).getLsbD 15 = true) ∧
  (∀ (c : Lane) (m : Bool), quant (expand c) m = c) ∧
  (∀ (w : Word) (m : Bool), encodePixel (expand (red w)) (expand (green w)) (expand (blue w)) m = w ||| 0x8000) ∧
  (∀ v : Channel, (expand (quant v false)).toNat ≤ v.toNat ∧ v.toNat ≤ (expand (quant v false)).toNat + 8 ∧
    (v.toNat = (expand (quant v false)).toNat + 8 ↔ v.toNat ∈ [8, 41, 74, 115, 148, 189, 222])) ∧
  (∀ v : Channel, v.toNat ≤ (expand (quant v true)).toNat + 4 ∧ (expand (quant v true)).toNat ≤ v.toNat + 5) ∧
  (∀ (r g b : Channel) (m : Bool), decodePixel (encodePixel r g b m) =
    (expand (quant r m) ++ expand (quant g m) ++ expand (quant b m) : BitVec 24)) ∧
  (∀ c : Lane, c.toNat * 255 ≤ (expand c).toNat * 31 ∧ (expand c).toNat * 31 < c.toNat * 255 + 31) ∧
  decodePixel 0x8000 = 0 ∧ decodePixel 0x0000 = 0 ∧ decodePixel 0xFFFF = 0xFFFFFF ∧ decodePixel 0x7FFF = 0xFFFFFF

/-- R108: ENCODE answers the encoded word under MODE.QRND and writes nothing. -/
def Obligations.EncodeAnswersTheEncodedWord : Prop :=
  ∀ (r g b : Channel) (s : State),
    exec (.encodeRgb r g b) s =
      .next { s with rsp := some (BitVec.ofNat 32 (Formula.encode r g b (s.mode.toNat % 2))) }

/-- R109: DECODE answers the three expanded channels, red first, whatever MODE and bit 15 of the word are. -/
def Obligations.DecodeAnswersTheExpandedChannels : Prop :=
  ∀ (w : Word) (s : State),
    exec (.decodeWord w) s = .next { s with rsp := some (BitVec.ofNat 32 (Formula.decode w)) } ∧
    exec (.decodeWord (w ||| 0x8000)) s = exec (.decodeWord w) s

/-! ## The buffer commands (41_buffer.md) -/

/-- R202: an index at or above NUMLEDS fails with IndexOutOfRange(n) in every command that takes one, with no access. -/
def Obligations.IndexAtOrAboveNumledsFails : Prop :=
  ∀ (n : Half) (r g b : Channel) (word factor : Half) (s : State), s.numLeds.toNat ≤ n.toNat →
    ∃ t, failsWith 1 n.toNat s t ∧ exec (.setrgb n r g b) s = .next t ∧ exec (.setw n word) s = .next t ∧
      exec (.getw n) s = .next t ∧ exec (.scale1 n factor) s = .next t

/-- R203, R180: an operand above C fails with CapacityViolation in SETNUM and INIT, NUMLEDS keeps its value and nothing
else happens; C itself is no violation. (That exec of INIT ends with its frame started, the response still to come, is the
model's choice: log entry 22.) -/
def Obligations.CountAboveCapacityFails : Prop :=
  ∀ (n : Half) (s : State),
    (s.cap.toNat < n.toNat →
      ∃ t, failsWith 2 n.toNat s t ∧ exec (.setnum n) s = .next t ∧ exec (.init n) s = .next t) ∧
    (n = s.cap → ∃ t u, exec (.setnum n) s = .next t ∧ t.numLeds = n ∧ t.rsp = some 0 ∧ t.err = s.err ∧
      exec (.init n) s = .next u ∧ u.numLeds = n ∧ u.rsp = s.rsp ∧ u.err = s.err ∧ u.seq.phase = .rst0)

/-- R121: SETNUM of a value up to C, C included, writes NUMLEDS only; above C it fails with CapacityViolation. -/
def Obligations.SetnumWritesNumledsOnly : Prop :=
  ∀ (n : Half) (s : State),
    (n.toNat ≤ s.cap.toNat → exec (.setnum n) s = .next { s with numLeds := n, rsp := some 0 }) ∧
    (s.cap.toNat < n.toNat → ∃ t, exec (.setnum n) s = .next t ∧ failsWith 2 n.toNat s t)

/-- R122: CLEAR makes every word below NUMLEDS 0x8000 and leaves the others. -/
def Obligations.ClearWritesTheOffPixelBelowNumleds : Prop :=
  ∀ s : State, s.numLeds.toNat ≤ s.cap.toNat →
    ∃ t, exec .clear s = .next t ∧
      (∀ a, a < s.numLeds.toNat → Memory.read? t.buf a = some 0x8000) ∧
      (∀ a, s.numLeds.toNat ≤ a → Memory.read? t.buf a = Memory.read? s.buf a) ∧
      t = { s with buf := t.buf, rsp := some 0 }

/-- R123: SETRGB stores the encoded word at n and nothing else; the old word does not matter. -/
def Obligations.SetrgbStoresTheEncodedWord : Prop :=
  ∀ (n : Half) (r g b : Channel) (s : State), n.toNat < s.numLeds.toNat → s.numLeds.toNat ≤ s.cap.toNat →
    ∃ t, exec (.setrgb n r g b) s = .next t ∧
      Memory.read? t.buf n.toNat = some (BitVec.ofNat 16 (Formula.encode r g b (s.mode.toNat % 2))) ∧
      (∀ a, a ≠ n.toNat → Memory.read? t.buf a = Memory.read? s.buf a) ∧
      t = { s with buf := t.buf, rsp := some 0 }

/-- R124: SETW stores the low 15 bits with the start bit set, whatever bit 15 of the operand is. -/
def Obligations.SetwStoresTheWordWithItsStartBit : Prop :=
  ∀ (n : Half) (word : Word) (s : State), n.toNat < s.numLeds.toNat → s.numLeds.toNat ≤ s.cap.toNat →
    ∃ t, exec (.setw n word) s = .next t ∧ exec (.setw n (word ||| 0x8000)) s = .next t ∧
      Memory.read? t.buf n.toNat = some (BitVec.ofNat 16 (32768 + word.toNat % 32768)) ∧
      (∀ a, a ≠ n.toNat → Memory.read? t.buf a = Memory.read? s.buf a) ∧
      t = { s with buf := t.buf, rsp := some 0 }

/-- R125, R62: GETW answers the word without its start bit and writes nothing; a word nothing has written is any word (the
draw counter, which is the model's own, may move: log entry 2). -/
def Obligations.GetwAnswersTheWordWithoutItsStartBit : Prop :=
  ∀ (n : Half) (s : State), n.toNat < s.numLeds.toNat → s.numLeds.toNat ≤ s.cap.toNat →
    ∃ (w : Word) (t : State), exec (.getw n) s = .next t ∧
      (∀ v, Memory.read? s.buf n.toNat = some v → w = v ∧ t.draws = s.draws) ∧
      t = { s with rsp := some (BitVec.ofNat 32 (w.toNat % 32768)), draws := t.draws }

/-- R126, its laws B1 to B3: what GETW answers after SETRGB, SETW and CLEAR. -/
def Obligations.GetwReadsBackWhatWasStored : Prop :=
  ∀ (n : Half) (r g b : Channel) (word : Word) (s : State), n.toNat < s.numLeds.toNat →
    s.numLeds.toNat ≤ s.cap.toNat →
    (∃ t u, exec (.setrgb n r g b) s = .next t ∧ exec (.getw n) t = .next u ∧
      u.rsp = some (BitVec.ofNat 32 (Formula.encode r g b (s.mode.toNat % 2) % 32768))) ∧
    (∃ t u, exec (.setw n word) s = .next t ∧ exec (.getw n) t = .next u ∧
      u.rsp = some (BitVec.ofNat 32 (word.toNat % 32768))) ∧
    (∃ t u, exec .clear s = .next t ∧ exec (.getw n) t = .next u ∧ u.rsp = some 0)

/-! ## The scaler (42_scaler.md) -/

/-- R143, its laws S1 to S8 over all arguments. -/
def Obligations.ScalerLawsHold : Prop :=
  (∀ (c : Lane) (m : Bool), scaleLane c 0x0100 m = c) ∧
  (∀ (w : Word) (m : Bool), scaleWord w 0x0100 m = w ||| 0x8000) ∧
  (∀ (c : Lane) (m : Bool), scaleLane c 0 m = 0) ∧
  (∀ (w : Word) (m : Bool), scaleWord w 0 m = 0x8000) ∧
  (∀ (f : Half) (m : Bool), scaleLane 0 f m = 0) ∧
  (∀ (c c' : Lane) (f f' : Half) (m : Bool), c.toNat ≤ c'.toNat → f.toNat ≤ f'.toNat →
    (scaleLane c f m).toNat ≤ (scaleLane c' f' m).toNat) ∧
  (∀ (c : Lane) (f : Half), (scaleLane c f false).toNat ≤ (scaleLane c f true).toNat ∧
    (scaleLane c f true).toNat ≤ (scaleLane c f false).toNat + 1) ∧
  (∀ (c : Lane) (f : Half), (7936 ≤ c.toNat * f.toNat → scaleLane c f false = 31) ∧
    (7808 ≤ c.toNat * f.toNat → scaleLane c f true = 31)) ∧
  ((∃ (w w' : Word) (f : Half) (m : Bool), w ||| 0x8000 ≠ w' ||| 0x8000 ∧ scaleWord w f m = scaleWord w' f m) ∧
    scaleLane (scaleLane 1 0x0080 false) 0x0200 false = 0 ∧ scaleLane 1 0x0100 false = 1) ∧
  (∀ (w : Word) (f : Half) (m : Bool), (scaleWord w f m).getLsbD 15 = true)

/-- R145: SCALEW answers the scaled word under MODE.SRND and writes nothing; bit 15 of the operand does not matter. -/
def Obligations.ScalewAnswersTheScaledWord : Prop :=
  ∀ (w : Word) (f : Half) (s : State),
    exec (.scalew w f) s = .next { s with rsp := some (BitVec.ofNat 32 (Formula.scale w f (s.mode.toNat / 2))) } ∧
    exec (.scalew (w ||| 0x8000) f) s = exec (.scalew w f) s

/-- R146, R62: SCALE1 rewrites the word at n with its scaling and nothing else; a word nothing has written is any word (the
draw counter may move: log entry 2). -/
def Obligations.ScaleOneRewritesTheWord : Prop :=
  ∀ (n f : Half) (s : State), n.toNat < s.numLeds.toNat → s.numLeds.toNat ≤ s.cap.toNat →
    ∃ (w : Word) (t : State), exec (.scale1 n f) s = .next t ∧
      (∀ v, Memory.read? s.buf n.toNat = some v → w = v ∧ t.draws = s.draws) ∧
      Memory.read? t.buf n.toNat = some (BitVec.ofNat 16 (Formula.scale w f (s.mode.toNat / 2))) ∧
      (∀ a, a ≠ n.toNat → Memory.read? t.buf a = Memory.read? s.buf a) ∧
      t = { s with buf := t.buf, rsp := some 0, draws := t.draws }

/-- R147, R62: SCALEALL rewrites every word below NUMLEDS with its own scaling and leaves the others. -/
def Obligations.ScaleAllRewritesTheWordsBelowNumleds : Prop :=
  ∀ (f : Half) (s : State), s.numLeds.toNat ≤ s.cap.toNat →
    ∃ t : State, exec (.scaleall f) s = .next t ∧
      (∀ a, a < s.numLeds.toNat → ∃ w : Word, (∀ v, Memory.read? s.buf a = some v → w = v) ∧
        Memory.read? t.buf a = some (BitVec.ofNat 16 (Formula.scale w f (s.mode.toNat / 2)))) ∧
      (∀ a, s.numLeds.toNat ≤ a → Memory.read? t.buf a = Memory.read? s.buf a) ∧
      t = { s with buf := t.buf, rsp := some 0, draws := t.draws }

/-- R147, its last law: SCALEALL equals SCALE1 of every index below NUMLEDS in ascending order, with one response. -/
def Obligations.ScaleAllEqualsScaleOneOfEveryIndex : Prop :=
  ∀ (f : Half) (s : State), s.numLeds.toNat ≤ s.cap.toNat →
    ∃ t, scaleOneByOne f s.numLeds.toNat 0 s = .next t ∧ exec (.scaleall f) s = .next { t with rsp := some 0 }

/-! ## The serializer (43_serializer.md) -/

/-- R164, R163: SHOW sets SEQ to (RST0, 0, delay, 0) and changes nothing else. (That exec of SHOW ends there, the
transfers being later steps, is the model's choice: log entry 22.) -/
def Obligations.ShowStartsTheFrame : Prop :=
  ∀ (d : Half) (s : State),
    exec (.showFrame d) s = .next { s with seq := { phase := .rst0, idx := 0, dly := d, cnt := 0 } }

/-- R163, the rows RST0, RST1 and PIX of its table when the transfer ends ok. Of SEQ after the last transfer only PHASE is
said (R27). -/
def Obligations.SequencerSendsAndAdvances : Prop :=
  ∀ (s : State) (moves : List EnvMove), s.env = .transport false :: moves →
    (s.seq.phase = .rst0 → step s = .next { s with
      env := moves, wire := s.wire ++ [.word 0], seq := { s.seq with phase := .rst1, cnt := s.seq.cnt + 1 } }) ∧
    (s.seq.phase = .rst1 → s.numLeds = 0 → ∃ t, step s = .next t ∧ t.seq.phase = .idle ∧
      t = { s with env := moves, wire := s.wire ++ [.word 0], rsp := some 0, seq := t.seq }) ∧
    (s.seq.phase = .rst1 → s.numLeds ≠ 0 → step s = .next { s with
      env := moves, wire := s.wire ++ [.word 0],
      seq := { s.seq with phase := .pix, idx := 0, cnt := s.seq.cnt + 1 } }) ∧
    (s.seq.phase = .pix → s.seq.idx.toNat < s.cap.toNat →
      ∃ (w : Word) (t : State), (∀ v, Memory.read? s.buf s.seq.idx.toNat = some v → w = v) ∧ step s = .next t ∧
        t = { s with env := moves, wire := s.wire ++ [.word w], seq := t.seq, rsp := t.rsp, draws := t.draws } ∧
        (s.seq.dly ≠ 0 → t.seq = { s.seq with phase := .wait, cnt := s.seq.cnt + 1 } ∧ t.rsp = s.rsp) ∧
        (s.seq.dly = 0 → s.seq.idx.toNat + 1 = s.numLeds.toNat →
          t.seq.phase = .idle ∧ t.rsp = some 0) ∧
        (s.seq.dly = 0 → s.seq.idx.toNat + 1 ≠ s.numLeds.toNat →
          t.seq = { s.seq with idx := s.seq.idx + 1, cnt := s.seq.cnt + 1 } ∧ t.rsp = s.rsp))

/-- R163, the row WAIT, and R161: the delay is recorded when it is over (log entry 13), then the sequencer advances. Of SEQ
after the last delay only PHASE is said (R27). -/
def Obligations.SequencerDelaysAndAdvances : Prop :=
  ∀ (s : State) (moves : List EnvMove), s.env = .delayOver :: moves → s.seq.phase = .wait →
    (s.seq.idx.toNat + 1 = s.numLeds.toNat → ∃ t, step s = .next t ∧ t.seq.phase = .idle ∧
      t = { s with env := moves, wire := s.wire ++ [.delay s.seq.dly], rsp := some 0, seq := t.seq }) ∧
    (s.seq.idx.toNat + 1 ≠ s.numLeds.toNat → step s = .next { s with
      env := moves, wire := s.wire ++ [.delay s.seq.dly],
      seq := { s.seq with phase := .pix, idx := s.seq.idx + 1 } })

/-- R163, R167, R204: a failed transfer ends the frame at once with TransportFailure(CNT); BUF and NUMLEDS stay. Of SEQ
afterwards only PHASE is said (R27). -/
def Obligations.FailedTransferAbortsTheFrame : Prop :=
  ∀ (s : State) (moves : List EnvMove), s.env = .transport true :: moves →
    s.seq.phase = .rst0 ∨ s.seq.phase = .rst1 ∨ (s.seq.phase = .pix ∧ s.seq.idx.toNat < s.cap.toNat) →
    ∃ (w : Word) (t u : State), step s = .next t ∧
      (s.seq.phase ≠ .pix → w = 0) ∧
      (s.seq.phase = .pix → ∀ v, Memory.read? s.buf s.seq.idx.toNat = some v → w = v) ∧
      t.seq.phase = .idle ∧
      u = { s with env := moves, wire := s.wire ++ [.fail w], seq := t.seq, draws := t.draws } ∧
      failsWith 3 s.seq.cnt.toNat u t

/-- R162, R164, R168: a SHOW in which every transfer is ok puts exactly the frame on the wire, two zero words, then every
word of BUF below NUMLEDS in index order with the delay after each, then responds OK; BUF, NUMLEDS and MODE stay. A word
nothing has written is any word (R62). -/
def Obligations.ShowSendsTheWholeFrame : Prop :=
  ∀ (s : State) (d : Half) (waiting : List Command) (rest : List EnvMove),
    s.accepts (encode (.showFrame d)) waiting → s.numLeds.toNat ≤ s.cap.toNat →
    s.env = frameAnswers d s.numLeds.toNat ++ rest →
    ∃ (ws : List Word) (t : State), ws.length = s.numLeds.toNat ∧ bufferHolds s.buf ws ∧
      runFor (1 + (frameAnswers d s.numLeds.toNat).length) s = .next t ∧ t.seq.phase = .idle ∧
      t = { s with
        cmds := waiting, env := rest, seq := t.seq, rsp := some 0, wire := s.wire ++ frameTrace d ws,
        draws := t.draws }

/-- R167, R204, R163: a SHOW whose transfer of pixel j fails has sent the two zero words and the pixels below j, sends
nothing after the failed word, and responds TransportFailure(j + 2); the header's own failures give 0 and 1. -/
def Obligations.ShowStopsAtTheFirstFailedTransfer : Prop :=
  ∀ (s : State) (d : Half) (waiting : List Command) (rest : List EnvMove),
    s.accepts (encode (.showFrame d)) waiting → s.numLeds.toNat ≤ s.cap.toNat →
    (s.env = [.transport true] ++ rest →
      ∃ t u, runFor 2 s = .next t ∧ t.seq.phase = .idle ∧ failsWith 3 0 u t ∧
        u = { s with cmds := waiting, env := rest, seq := t.seq, wire := s.wire ++ [.fail 0] }) ∧
    (s.env = [.transport false, .transport true] ++ rest →
      ∃ t u, runFor 3 s = .next t ∧ t.seq.phase = .idle ∧ failsWith 3 1 u t ∧
        u = { s with cmds := waiting, env := rest, seq := t.seq, wire := s.wire ++ [.word 0, .fail 0] }) ∧
    (∀ j, j < s.numLeds.toNat →
      s.env = frameAnswers d j ++ [.transport true] ++ rest →
      ∃ (ws : List Word) (w : Word) (t u : State), ws.length = j ∧ bufferHolds s.buf (ws ++ [w]) ∧
        runFor (2 + (frameAnswers d j).length) s = .next t ∧ t.seq.phase = .idle ∧ failsWith 3 (j + 2) u t ∧
        u = { s with
          cmds := waiting, env := rest, seq := t.seq, wire := s.wire ++ frameTrace d ws ++ [.fail w],
          draws := t.draws })

/-- R170, R58: a frame whose transport or delay does not answer stays where it is and is not final (that the machine
answers its own state is the model's choice, log entry 16). -/
def Obligations.UnansweredFrameWaits : Prop :=
  ∀ s : State, s.seq.phase ≠ .idle → s.env = [] → step s = .next s ∧ s.final = false

/-- R169, R163, R126 (B5): the wire trace grows by one event at most, only while a frame is in progress, and no step takes
an event back. -/
def Obligations.WireGrowsOnlyDuringAFrame : Prop :=
  ∀ s t : State, step s = .next t →
    t.wire = s.wire ∨ (s.seq.phase ≠ .idle ∧ ∃ e, t.wire = s.wire ++ [e])

/-! ## The driver (44_driver.md) -/

/-- R180: INIT of a count up to C writes NUMLEDS, clears the words below it and starts a frame without delay; MODE, ERR
and the words from count up stay. (That exec of INIT ends there, the transfers and the response being later steps, is the
model's choice: log entry 22.) -/
def Obligations.InitClearsAndStartsTheFrame : Prop :=
  ∀ (count : Half) (s : State), count.toNat ≤ s.cap.toNat →
    ∃ t, exec (.init count) s = .next t ∧
      (∀ a, a < count.toNat → Memory.read? t.buf a = some 0x8000) ∧
      (∀ a, count.toNat ≤ a → Memory.read? t.buf a = Memory.read? s.buf a) ∧
      t = { s with buf := t.buf, numLeds := count, seq := { phase := .rst0, idx := 0, dly := 0, cnt := 0 } }

/-- R180, R162: an INIT in which every transfer is ok ends with NUMLEDS = count, the words below it cleared, the all-off
frame on the wire without delays, and the response OK. -/
def Obligations.InitSendsTheAllOffFrame : Prop :=
  ∀ (s : State) (count : Half) (waiting : List Command) (rest : List EnvMove),
    s.accepts (encode (.init count)) waiting → count.toNat ≤ s.cap.toNat →
    s.env = frameAnswers 0 count.toNat ++ rest →
    ∃ t : State, runFor (1 + (frameAnswers 0 count.toNat).length) s = .next t ∧ t.seq.phase = .idle ∧
      (∀ a, a < count.toNat → Memory.read? t.buf a = some 0x8000) ∧
      (∀ a, count.toNat ≤ a → Memory.read? t.buf a = Memory.read? s.buf a) ∧
      t = { s with
        cmds := waiting, env := rest, buf := t.buf, numLeds := count, seq := t.seq, rsp := some 0,
        wire := s.wire ++ frameTrace 0 (List.replicate count.toNat 0x8000) }

/-- R181: INIT count does what SETNUM count, CLEAR, SHOW 0 do in that order, but for the responses between them; above C it
does what the failing SETNUM does. -/
def Obligations.InitEqualsSetnumClearShow : Prop :=
  ∀ (count : Half) (s : State),
    (count.toNat ≤ s.cap.toNat → ∃ t u v, exec (.setnum count) s = .next t ∧ exec .clear t = .next u ∧
      exec (.showFrame 0) u = .next v ∧ exec (.init count) s = .next { v with rsp := s.rsp }) ∧
    (s.cap.toNat < count.toNat → exec (.init count) s = exec (.setnum count) s)

/-! ## The system commands (45_system.md) -/

/-- R185: NOP answers OK with data 0 and does nothing else. -/
def Obligations.NopOnlyAnswers : Prop :=
  ∀ s : State, exec .nop s = .next { s with rsp := some 0 }

/-- R186: RDCSR answers NUMLEDS, C, MODE or ERR and writes nothing, ERR included; a number above 3 is illegal. -/
def Obligations.RdcsrAnswersTheRegister : Prop :=
  ∀ (csr : Half) (s : State),
    (csr.toNat = 0 → exec (.rdcsr csr) s = .next { s with rsp := some (BitVec.ofNat 32 s.numLeds.toNat) }) ∧
    (csr.toNat = 1 → exec (.rdcsr csr) s = .next { s with rsp := some (BitVec.ofNat 32 s.cap.toNat) }) ∧
    (csr.toNat = 2 → exec (.rdcsr csr) s = .next { s with rsp := some (BitVec.ofNat 32 s.mode.toNat) }) ∧
    (csr.toNat = 3 → exec (.rdcsr csr) s = .next { s with rsp := some (BitVec.ofNat 32 s.err.toNat) }) ∧
    (3 < csr.toNat → ∃ t, exec (.rdcsr csr) s = .next t ∧ failsWith 4 0x0D s t)

/-- R187: WRCSR writes a 2-bit MODE or clears ERR; every other number or value is illegal and leaves the register. -/
def Obligations.WrcsrWritesModeOrClearsErr : Prop :=
  ∀ (csr : Half) (value : Data) (s : State),
    (csr.toNat = 2 → value.toNat < 4 →
      exec (.wrcsr csr value) s = .next { s with mode := BitVec.ofNat 2 value.toNat, rsp := some 0 }) ∧
    (csr.toNat = 3 → value.toNat = 0 → exec (.wrcsr csr value) s = .next { s with err := 0, rsp := some 0 }) ∧
    (csr.toNat = 2 ∧ 4 ≤ value.toNat ∨ csr.toNat = 3 ∧ value.toNat ≠ 0 ∨ csr.toNat < 2 ∨ 3 < csr.toNat →
      ∃ t, exec (.wrcsr csr value) s = .next t ∧ failsWith 4 0x0E s t)

/-- R188, R25, R106: the answer of ENCODE depends on the state through MODE.QRND only, that of SCALEW through MODE.SRND
only, those of DECODE and NOP not at all. -/
def Obligations.PureCommandsReadOnlyTheirModeBit : Prop :=
  ∀ (s s' t t' : State) (r g b : Channel) (w : Word) (f : Half),
    (s.mode.toNat % 2 = s'.mode.toNat % 2 → exec (.encodeRgb r g b) s = .next t →
      exec (.encodeRgb r g b) s' = .next t' → t.rsp = t'.rsp) ∧
    (s.mode.toNat / 2 = s'.mode.toNat / 2 → exec (.scalew w f) s = .next t →
      exec (.scalew w f) s' = .next t' → t.rsp = t'.rsp) ∧
    (exec (.decodeWord w) s = .next t → exec (.decodeWord w) s' = .next t' → t.rsp = t'.rsp) ∧
    (exec .nop s = .next t → exec .nop s' = .next t' → t.rsp = t'.rsp)

/-! ## Whole-machine rules (10_state.md, 20_memory.md) -/

/-- R22, R230: only SETNUM and INIT, with their operand and only up to C, and reset, with 0, write NUMLEDS, whichever agent
moves. -/
def Obligations.NumledsIsWrittenOnlyBySetnumAndInit : Prop :=
  (∀ (i : Instr) (s t : State), exec i s = .next t → t.numLeds ≠ s.numLeds →
    ∃ n, (i = .setnum n ∨ i = .init n) ∧ n.toNat ≤ s.cap.toNat ∧ t.numLeds = n) ∧
  (∀ s t : State, step s = .next t → t.numLeds ≠ s.numLeds →
    (∃ w waiting n, s.accepts w waiting ∧ (decode w = .ok (.setnum n) ∨ decode w = .ok (.init n)) ∧
      n.toNat ≤ s.cap.toNat ∧ t.numLeds = n) ∨
    (t.numLeds = 0 ∧ ((∃ moves, s.env = .rst :: moves) ∨ ∃ k moves, s.env = .rstDuring k :: moves)))

/-- R24: no step of any agent changes C, and RDCSR 1 reads it. -/
def Obligations.CapacityNeverChanges : Prop :=
  (∀ s t : State, step s = .next t → t.cap = s.cap) ∧
  (∀ s : State, exec (.rdcsr 1) s = .next { s with rsp := some (BitVec.ofNat 32 s.cap.toNat) })

/-- R31: every word a command writes to BUF is wire-valid. -/
def Obligations.CommandsWriteWireValidWords : Prop :=
  ∀ (i : Instr) (s t : State) (a : Nat) (w : Word), exec i s = .next t →
    Memory.read? t.buf a = some w → Memory.read? s.buf a ≠ some w → w.getLsbD 15 = true

/-- R36: the words from NUMLEDS up keep their content across every command but INIT, which keeps those from its count
up. -/
def Obligations.WordsAboveNumledsKeepTheirContent : Prop :=
  ∀ (i : Instr) (s t : State) (a : Nat), exec i s = .next t →
    ((∀ n, i ≠ .init n) → s.numLeds.toNat ≤ a → Memory.read? t.buf a = Memory.read? s.buf a) ∧
    (∀ n, i = .init n → n.toNat ≤ a → Memory.read? t.buf a = Memory.read? s.buf a)

/-- R60: an idle block lets the owner write any word of BUF with any value, and the block sees it; while the block is busy
the owner's access has no meaning (refused by name: log entry 8). -/
def Obligations.OwnerWritesOnlyWhileIdle : Prop :=
  ∀ (s : State) (a : Half) (w : Word) (moves : List EnvMove), s.env = .ownerWrite a w :: moves →
    (s.busy = false → s.cmds = [] → a.toNat < s.cap.toNat →
      ∃ t, step s = .next t ∧ Memory.read? t.buf a.toNat = some w ∧
        (∀ c, c ≠ a.toNat → Memory.read? t.buf c = Memory.read? s.buf c) ∧ t = { s with buf := t.buf, env := moves }) ∧
    (s.busy = true → step s = .refused .ownerWhileBusy)

/-- R23, R26, R27, R34, R78 and the canonical form of BUF: every step of every agent keeps the invariant. -/
def Obligations.InvariantIsKeptByEveryStep : Prop :=
  ∀ s t : State, s.Inv → step s = .next t → t.Inv

/-- R33, R23: the power-up state of every capacity from 1 up has the invariant; so has State.reset, whose capacity 4 is the
model's choice (log entry 3). -/
def Obligations.InvariantHoldsAtReset : Prop :=
  (∀ c : Half, 1 ≤ c.toNat → (State.resetWith c).Inv) ∧ State.reset.Inv

/-- R23, R56: from a state with the invariant the block itself never addresses BUF at or beyond C; the one fault left is
the buffer owner's own access there. (That an access there is a fault is the model's reading: log entry 9.) -/
def Obligations.BlockNeverAddressesBeyondCapacity : Prop :=
  ∀ (s : State) (r : Fault), s.Inv → step s = .fault r →
    ∃ (a : Half) (moves : List EnvMove), s.cap.toNat ≤ a.toNat ∧ r = .bufferAddress a.toNat ∧
      (s.env = .ownerRead a :: moves ∨ ∃ w, s.env = .ownerWrite a w :: moves)

/-! ## Reset (10_state.md R33, 70_reset_and_hazards.md) -/

/-- R33: what reset leaves, for every C: NUMLEDS, MODE and ERR 0, the sequencer idle, no response pending, not busy, CAP
reads C, every word of BUF unwritten, the wire empty. -/
def Obligations.ResetLeavesTheSpecifiedState : Prop :=
  ∀ c : Half, (State.resetWith c).numLeds = 0 ∧ (State.resetWith c).mode = 0 ∧ (State.resetWith c).err = 0 ∧
    (State.resetWith c).errOut = false ∧ (State.resetWith c).seq.phase = .idle ∧ (State.resetWith c).rsp = none ∧
    (State.resetWith c).busy = false ∧ (State.resetWith c).cap = c ∧
    (∀ a, Memory.read? (State.resetWith c).buf a = none) ∧ (State.resetWith c).wire = []

/-- R230, R231: rst between two transfers, with a response pending, or in an idle block with no command waiting, puts the
block's state at its reset values, drops the response, and neither reads nor writes BUF nor the wire. With a command waiting
at an idle block, that command is accepted first (log entry 20) and rst then drops it. (What stays beside BUF, and that a
transfer or a delay in progress leaves no event, are the model's readings: log entries 10, 13, 14.) -/
def Obligations.RstResetsEverythingButTheBuffer : Prop :=
  ∀ (s : State) (moves : List EnvMove), s.env = .rst :: moves →
    (s.busy = true ∨ s.cmds = [] →
      ∃ t, step s = .next t ∧ t.numLeds = 0 ∧ t.mode = 0 ∧ t.err = 0 ∧ t.seq.phase = .idle ∧ t.rsp = none ∧
        t = { s with numLeds := t.numLeds, mode := t.mode, err := t.err, seq := t.seq, rsp := t.rsp, env := moves }) ∧
    (∀ w waiting, s.busy = false → s.cmds = w :: waiting → s.numLeds.toNat ≤ s.cap.toNat →
      ∃ t u, step s = .next t ∧ step t = .next u ∧
        u.numLeds = 0 ∧ u.mode = 0 ∧ u.err = 0 ∧ u.seq.phase = .idle ∧ u.rsp = none ∧
        u = { s with
          buf := t.buf, numLeds := u.numLeds, mode := u.mode, err := u.err, seq := u.seq, rsp := u.rsp,
          draws := u.draws, cmds := waiting, env := moves })

/-- R231: rst while a command executes abandons it: no response, nothing on the wire, every state but BUF at its reset
value; of its buffer writes the first k have been made and the others not, which is said for every command that makes any,
and a command that makes none, or fails its check, or a word that spells none, leaves BUF as it was. (That the reset falls
after k writes and before the first transfer is how the model lays it out: log entry 11; what stays beside BUF: entry
10.) -/
def Obligations.RstDuringACommandLeavesItPartDone : Prop :=
  ∀ (s : State) (w : Command) (waiting : List Command) (k : Nat) (moves : List EnvMove),
    s.busy = false → s.cmds = w :: waiting → s.env = .rstDuring k :: moves → s.numLeds.toNat ≤ s.cap.toNat →
    ∃ t, step s = .next t ∧ t.numLeds = 0 ∧ t.mode = 0 ∧ t.err = 0 ∧ t.seq.phase = .idle ∧ t.rsp = none ∧
      t = { s with
        buf := t.buf, numLeds := t.numLeds, mode := t.mode, err := t.err, seq := t.seq, rsp := t.rsp,
        draws := t.draws, cmds := waiting, env := moves } ∧
      (k = 0 → t.buf = s.buf) ∧
      (∀ e, decode w = .error e → t.buf = s.buf) ∧
      (∀ i, decode w = .ok i → writesBuffer i = false → t.buf = s.buf) ∧
      (decode w = .ok .clear → ∀ a, Memory.read? t.buf a =
        if a < k ∧ a < s.numLeds.toNat then some 0x8000 else Memory.read? s.buf a) ∧
      (∀ n, decode w = .ok (.init n) →
        (s.cap.toNat < n.toNat → t.buf = s.buf) ∧
        (n.toNat ≤ s.cap.toNat → ∀ a, Memory.read? t.buf a =
          if a < k ∧ a < n.toNat then some 0x8000 else Memory.read? s.buf a)) ∧
      (∀ f, decode w = .ok (.scaleall f) →
        (∀ a, a < k → a < s.numLeds.toNat → ∃ v : Word, (∀ v', Memory.read? s.buf a = some v' → v = v') ∧
          Memory.read? t.buf a = some (BitVec.ofNat 16 (Formula.scale v f (s.mode.toNat / 2)))) ∧
        (∀ a, k ≤ a ∨ s.numLeds.toNat ≤ a → Memory.read? t.buf a = Memory.read? s.buf a)) ∧
      (∀ n r g b, decode w = .ok (.setrgb n r g b) → ∀ a, Memory.read? t.buf a =
        if 0 < k ∧ n.toNat < s.numLeds.toNat ∧ a = n.toNat
        then some (BitVec.ofNat 16 (Formula.encode r g b (s.mode.toNat % 2))) else Memory.read? s.buf a) ∧
      (∀ n word, decode w = .ok (.setw n word) → ∀ a, Memory.read? t.buf a =
        if 0 < k ∧ n.toNat < s.numLeds.toNat ∧ a = n.toNat
        then some (BitVec.ofNat 16 (32768 + word.toNat % 32768)) else Memory.read? s.buf a) ∧
      (∀ n f, decode w = .ok (.scale1 n f) →
        ∃ v : Word, (∀ v', Memory.read? s.buf n.toNat = some v' → v = v') ∧ ∀ a, Memory.read? t.buf a =
          if 0 < k ∧ n.toNat < s.numLeds.toNat ∧ a = n.toNat
          then some (BitVec.ofNat 16 (Formula.scale v f (s.mode.toNat / 2))) else Memory.read? s.buf a)

/-! ## The end of a run, the output ports, INIT's failures -/

/-- R241: a state is final exactly when the block is idle with no response pending and no command of the run is left,
neither waiting at the port nor still to be presented (log entry 25; that a state in which a reset abandoned the last command
is final too is the model's choice: log entry 26); from a final state every step leads to a final state,
hands no response over and puts nothing on the wire. -/
def Obligations.FinalStateIsTheEndOfTheRun : Prop :=
  (∀ s : State, s.final = true ↔
    s.seq.phase = .idle ∧ s.rsp = none ∧ s.cmds = [] ∧ ∀ w : Command, EnvMove.present w ∉ s.env) ∧
  (∀ s t : State, s.final = true → step s = .next t →
    t.final = true ∧ t.wire = s.wire ∧ t.taken = s.taken ∧ t.rsp = none)

/-- R160, R161, R230: the word at the transport port is the word recorded when the transport takes it, ok or failed, and the
count at the delay port is the delay recorded when it ends (log entry 13); a port that offers nothing makes no hand-over; an
idle sequencer offers nothing; and what the ports offer stays until the hand-over or reset, also a pixel word that nothing has
written (log entry 23). -/
def Obligations.PortsOfferWhatIsRecorded : Prop :=
  (∀ (s : State) (fail : Bool) (moves : List EnvMove) (w : Word), s.env = .transport fail :: moves →
    s.txPort = some w → (s.seq.phase = .pix → s.seq.idx.toNat < s.cap.toNat) →
    ∃ t, step s = .next t ∧ t.wire = s.wire ++ [if fail then .fail w else .word w]) ∧
  (∀ (s : State) (moves : List EnvMove) (d : BitVec 16), s.env = .delayOver :: moves → s.dlyPort = some d →
    ∃ t, step s = .next t ∧ t.wire = s.wire ++ [.delay d]) ∧
  (∀ (s : State) (fail : Bool) (moves : List EnvMove), s.busy = true ∨ s.cmds = [] →
    (s.env = .transport fail :: moves → s.txPort = none → step s = .next { s with env := moves }) ∧
    (s.env = .delayOver :: moves → s.dlyPort = none → step s = .next { s with env := moves })) ∧
  (∀ s : State, s.seq.phase = .idle → s.txPort = none ∧ s.dlyPort = none) ∧
  (∀ s t : State, s.seq.phase ≠ .idle → step s = .next t → t.wire = s.wire →
    (∀ moves, s.env ≠ .rst :: moves) → (∀ k moves, s.env ≠ .rstDuring k :: moves) →
    t.txPort = s.txPort ∧ t.dlyPort = s.dlyPort)

/-- R180, R204, R167: an INIT whose k-th transfer fails has written NUMLEDS and cleared the words below count, which stay so,
has sent what came before the failed word and nothing after it, and responds TransportFailure(k): 0 and 1 in the header,
j + 2 at pixel j. -/
def Obligations.InitStopsAtTheFirstFailedTransfer : Prop :=
  ∀ (s : State) (count : Half) (waiting : List Command) (rest : List EnvMove) (k : Nat),
    s.accepts (encode (.init count)) waiting → count.toNat ≤ s.cap.toNat → k < count.toNat + 2 →
    s.env = List.replicate k (.transport false) ++ [.transport true] ++ rest →
    ∃ t u : State, runFor (k + 2) s = .next t ∧ t.seq.phase = .idle ∧ failsWith 3 k u t ∧
      (∀ a, a < count.toNat → Memory.read? t.buf a = some 0x8000) ∧
      (∀ a, count.toNat ≤ a → Memory.read? t.buf a = Memory.read? s.buf a) ∧
      u = { s with
        cmds := waiting, env := rest, buf := t.buf, numLeds := count, seq := t.seq,
        wire := s.wire ++ (frameTrace 0 (List.replicate count.toNat 0x8000)).take k ++
          [.fail (if k < 2 then 0 else 0x8000)] }
end

