-- ==== Sys2Proof/Laws/Encoding.lean ====
section
/-! SUPPORT. The fields of an encoded command word (30_encoding.md R70, R71). -/

namespace Sys2Proof

@[simp] theorem opField_append (op : BitVec 8) (a : Half) (b : Data) :
    opField (op ++ a ++ b : BitVec 48) = op := by
  apply BitVec.eq_of_getLsbD_eq; intro i hi
  have h1 : ¬ 40 + i < 24 := by omega
  have h2 : ¬ 40 + i - 24 < 16 := by omega
  have h3 : 40 + i - 24 - 16 = i := by omega
  simp only [opField, BitVec.getLsbD_append, BitVec.getLsbD_extractLsb']
  simp [h1, h2, h3, hi]

@[simp] theorem aField_append (op : BitVec 8) (a : Half) (b : Data) :
    aField (op ++ a ++ b : BitVec 48) = a := by
  apply BitVec.eq_of_getLsbD_eq; intro i hi
  have h1 : ¬ 24 + i < 24 := by omega
  have h2 : 24 + i - 24 = i := by omega
  simp only [aField, BitVec.getLsbD_append, BitVec.getLsbD_extractLsb']
  simp [h1, h2, hi]

@[simp] theorem bField_append (op : BitVec 8) (a : Half) (b : Data) :
    bField (op ++ a ++ b : BitVec 48) = b := by
  apply BitVec.eq_of_getLsbD_eq; intro i hi
  simp only [bField, BitVec.getLsbD_append, BitVec.getLsbD_extractLsb']
  simp [hi]

/-- A word is its three fields from the top (R70). -/
theorem fields_append (w : Command) : (opField w ++ aField w ++ bField w : BitVec 48) = w := by
  apply BitVec.eq_of_getLsbD_eq; intro i hi
  simp only [BitVec.getLsbD_append, opField, aField, bField, BitVec.getLsbD_extractLsb']
  split
  · next h => simp [h]
  · split
    · next h24 h =>
      have e : 24 + (i - 24) = i := by omega
      simp [h, e]
    · next h24 h40 =>
      have e : 40 + (i - 24 - 16) = i := by omega
      have h8 : i - 24 - 16 < 8 := by omega
      simp [h8, e]

@[simp] theorem bRed_rgbData (r g b : Channel) : bRed (rgbData r g b) = r := by
  apply BitVec.eq_of_getLsbD_eq; intro i hi
  have h1 : ¬ 16 + i < 8 := by omega
  have h2 : ¬ 16 + i - 8 < 8 := by omega
  have h3 : 16 + i - 8 - 8 = i := by omega
  simp only [bRed, rgbData, BitVec.getLsbD_append, BitVec.getLsbD_extractLsb']
  simp [h1, h2, h3, hi]

@[simp] theorem bGreen_rgbData (r g b : Channel) : bGreen (rgbData r g b) = g := by
  apply BitVec.eq_of_getLsbD_eq; intro i hi
  have h1 : ¬ 8 + i < 8 := by omega
  have h2 : 8 + i - 8 = i := by omega
  simp only [bGreen, rgbData, BitVec.getLsbD_append, BitVec.getLsbD_extractLsb']
  simp [h1, h2, hi]

@[simp] theorem bBlue_rgbData (r g b : Channel) : bBlue (rgbData r g b) = b := by
  apply BitVec.eq_of_getLsbD_eq; intro i hi
  simp only [bBlue, rgbData, BitVec.getLsbD_append, BitVec.getLsbD_extractLsb']
  simp [hi]

/-- The rgb reading put together again (R71). -/
@[simp] theorem rgbData_fields (b : Data) : rgbData (bRed b) (bGreen b) (bBlue b) = b := by
  apply BitVec.eq_of_getLsbD_eq; intro i hi
  simp only [rgbData, BitVec.getLsbD_append, bRed, bGreen, bBlue, BitVec.getLsbD_extractLsb']
  split
  · next h => simp [h]
  · split
    · next h8 h =>
      have e : 8 + (i - 8) = i := by omega
      simp [h, e]
    · next h8 h16 =>
      have e : 16 + (i - 8 - 8) = i := by omega
      have h8 : i - 8 - 8 < 8 := by omega
      simp [h8, e]

@[simp] theorem bHalf_halfData (h : Half) : bHalf (halfData h) = h := by
  apply BitVec.eq_of_getLsbD_eq; intro i hi
  simp only [bHalf, halfData, BitVec.getLsbD_append, BitVec.getLsbD_extractLsb']
  simp [hi]

@[simp] theorem bHigh_halfData (h : Half) : bHigh (halfData h) = 0 := by
  apply BitVec.eq_of_getLsbD_eq; intro i hi
  simp only [bHigh, halfData, BitVec.getLsbD_append, BitVec.getLsbD_extractLsb']
  simp

/-- The half reading put together again when its high bits are 0 (R71). -/
theorem halfData_fields {b : Data} (h : bHigh b = 0) : halfData (bHalf b) = b := by
  apply BitVec.eq_of_getLsbD_eq; intro i hi
  simp only [halfData, BitVec.getLsbD_append, bHalf, BitVec.getLsbD_extractLsb']
  split
  · next hl => simp [hl]
  · next hl =>
    have hb := congrArg (fun x => BitVec.getLsbD x (i - 16)) h
    have e : 16 + (i - 16) = i := by omega
    have h8 : i - 16 < 8 := by omega
    simp [bHigh, e, h8] at hb
    simp [hb]

/-- Masking a word masks its three fields. -/
theorem append_and_append (op mop : BitVec 8) (a ma : Half) (b mb : Data) :
    ((op ++ a ++ b : BitVec 48) &&& (mop ++ ma ++ mb : BitVec 48)) =
      ((op &&& mop) ++ (a &&& ma) ++ (b &&& mb) : BitVec 48) := by
  apply BitVec.eq_of_getLsbD_eq; intro i hi
  simp only [BitVec.getLsbD_and, BitVec.getLsbD_append]
  split
  · rfl
  · split <;> rfl

@[simp] theorem opField_encode (i : Instr) : opField (encode i) = i.opcode := opField_append _ _ _
@[simp] theorem aField_encode (i : Instr) : aField (encode i) = i.aOperand := aField_append _ _ _
@[simp] theorem bField_encode (i : Instr) : bField (encode i) = i.bOperand := bField_append _ _ _

/-! ## The fields as numbers (R70, R71) -/

theorem opField_toNat (w : Command) : (opField w).toNat = w.toNat / 2 ^ 40 := by
  have := w.isLt
  simp [opField, BitVec.extractLsb'_toNat, Nat.shiftRight_eq_div_pow]; omega

theorem aField_toNat (w : Command) : (aField w).toNat = w.toNat / 2 ^ 24 % 2 ^ 16 := by
  simp [aField, BitVec.extractLsb'_toNat, Nat.shiftRight_eq_div_pow]

theorem bField_toNat (w : Command) : (bField w).toNat = w.toNat % 2 ^ 24 := by
  simp [bField, BitVec.extractLsb'_toNat]

theorem bHigh_toNat (w : Command) : (bHigh (bField w)).toNat = w.toNat / 2 ^ 16 % 2 ^ 8 := by
  simp [bHigh, bField_toNat, BitVec.extractLsb'_toNat, Nat.shiftRight_eq_div_pow]; omega

/-- An opcode with a place in the opcode map is that of the command it spells (R74). -/
theorem opcodeMap_fields {op : BitVec 8} {a : Half} {b : Data} {f : Format} {i : Instr}
    (h : opcodeMap op a b = some (f, i)) (hz : f.reservedZero a b = true) :
    i.opcode = op ∧ i.aOperand = a ∧ i.bOperand = b := by
  have key : ∀ n : Nat, op.toNat = n → n < 256 → op = BitVec.ofNat 8 n := by
    intro n hn h; apply BitVec.eq_of_toNat_eq; simp [hn]; omega
  unfold opcodeMap at h
  split at h <;> first | (cases h; done) | skip
  all_goals
    rename_i hop
    obtain rfl := key _ hop (by omega)
    simp only [Option.some.injEq, Prod.mk.injEq] at h
    obtain ⟨rfl, rfl⟩ := h
    simp_all [Format.reservedZero, Instr.opcode, Instr.aOperand, Instr.bOperand, halfData_fields]

end Sys2Proof
end

