-- ==== Sys2Proof/Laws/Operands.lean ====
section
/-! SUPPORT. The pixel word's fields and the exact values of the quantizer, the expander and the lane scaler. -/

namespace Sys2Proof.Machine

@[simp] theorem startBit_pack (s : BitVec 1) (g r b : Lane) : startBit (pack s g r b) = s := by
  apply BitVec.eq_of_getLsbD_eq; intro i hi
  obtain rfl : i = 0 := by omega
  simp only [startBit, pack, BitVec.getLsbD_append, BitVec.getLsbD_extractLsb']
  simp

@[simp] theorem green_pack (s : BitVec 1) (g r b : Lane) : green (pack s g r b) = g := by
  apply BitVec.eq_of_getLsbD_eq; intro i hi
  have h1 : ¬ 10 + i < 5 := by omega
  have h2 : ¬ 10 + i - 5 < 5 := by omega
  have h3 : 10 + i - 5 - 5 = i := by omega
  simp only [green, pack, BitVec.getLsbD_append, BitVec.getLsbD_extractLsb']
  simp [h1, h2, h3, hi]

@[simp] theorem red_pack (s : BitVec 1) (g r b : Lane) : red (pack s g r b) = r := by
  apply BitVec.eq_of_getLsbD_eq; intro i hi
  have h1 : ¬ 5 + i < 5 := by omega
  have h2 : 5 + i - 5 = i := by omega
  simp only [red, pack, BitVec.getLsbD_append, BitVec.getLsbD_extractLsb']
  simp [h1, h2, hi]

@[simp] theorem blue_pack (s : BitVec 1) (g r b : Lane) : blue (pack s g r b) = b := by
  apply BitVec.eq_of_getLsbD_eq; intro i hi
  simp only [blue, pack, BitVec.getLsbD_append, BitVec.getLsbD_extractLsb']
  simp [hi]

/-- A word is its start bit and its three fields (10_state.md R30). -/
theorem pack_fields (w : Word) : pack (startBit w) (green w) (red w) (blue w) = w := by
  apply BitVec.eq_of_getLsbD_eq; intro i hi
  simp only [pack, BitVec.getLsbD_append, startBit, green, red, blue, BitVec.getLsbD_extractLsb']
  split
  · next h => simp [h]
  · split
    · next h5 h =>
      have e : 5 + (i - 5) = i := by omega
      simp [h, e]
    · split
      · next h5 h10 h =>
        have e : 10 + (i - 5 - 5) = i := by omega
        simp [h, e]
      · next h5 h10 h15 =>
        have e : i = 15 := by omega
        subst e; simp

/-- quant as a number: no bit is lost (40_codec.md R100, R101). -/
theorem quant_toNat (v : Channel) (m : Bool) :
    (quant v m).toNat = (v.toNat * 31 + if m then 127 else 0) / 255 := by
  have hv := v.isLt
  unfold quant
  rw [BitVec.toNat_ofNat]
  cases m <;> simp <;> omega

/-- expand as a number: no bit is lost (40_codec.md R103). -/
theorem expand_toNat (c : Lane) : (expand c).toNat = (c.toNat * 255 + 30) / 31 := by
  have hc := c.isLt
  unfold expand
  rw [BitVec.toNat_ofNat]
  omega

/-- sc as a number: no bit is lost (42_scaler.md R141). -/
theorem scaleLane_toNat (c : Lane) (f : Half) (s : Bool) :
    (scaleLane c f s).toNat = min 31 ((c.toNat * f.toNat + if s then 128 else 0) / 256) := by
  unfold scaleLane
  rw [BitVec.toNat_ofNat]
  exact Nat.mod_eq_of_lt (by have := Nat.min_le_left 31 ((c.toNat * f.toNat + if s then 128 else 0) / 256); omega)

/-- Every encoded word is wire-valid (40_codec.md R105). -/
@[simp] theorem wireValid_encodePixel (r g b : Channel) (m : Bool) : wireValid (encodePixel r g b m) = true := by
  simp [wireValid, encodePixel]

/-- Every scaled word is wire-valid (42_scaler.md R142). -/
@[simp] theorem wireValid_scaleWord (w : Word) (f : Half) (s : Bool) : wireValid (scaleWord w f s) = true := by
  simp [wireValid, scaleWord]

/-- The all-off pixel is wire-valid (10_state.md R31). -/
@[simp] theorem wireValid_offPixel : wireValid offPixel = true := by decide

/-- A word with its start bit set is wire-valid (41_buffer.md R124). -/
@[simp] theorem wireValid_withStartBit (w : Word) : wireValid (withStartBit w) = true := by
  have h : startBit (withStartBit w) = 1 := by
    apply BitVec.eq_of_getLsbD_eq; intro i hi
    obtain rfl : i = 0 := by omega
    simp [startBit, withStartBit]
  simp [wireValid, h]

/-! ## The numbers of the spec's formulas -/

/-- pack as a number (10_state.md R30). -/
theorem pack_toNat (s : BitVec 1) (g r b : Lane) :
    (pack s g r b).toNat = 32768 * s.toNat + 1024 * g.toNat + 32 * r.toNat + b.toNat := by
  have hg := g.isLt; have hr := r.isLt; have hb := b.isLt
  simp only [pack, BitVec.toNat_append]
  rw [← Nat.shiftLeft_add_eq_or_of_lt hg, ← Nat.shiftLeft_add_eq_or_of_lt hr, ← Nat.shiftLeft_add_eq_or_of_lt hb]
  simp only [Nat.shiftLeft_eq]
  omega

/-- G(w) as a number (R30). -/
theorem green_toNat (w : Word) : (green w).toNat = Formula.lane w 10 := by
  simp [green, Formula.lane, BitVec.extractLsb'_toNat, Nat.shiftRight_eq_div_pow]

/-- R(w) as a number (R30). -/
theorem red_toNat (w : Word) : (red w).toNat = Formula.lane w 5 := by
  simp [red, Formula.lane, BitVec.extractLsb'_toNat, Nat.shiftRight_eq_div_pow]

/-- B(w) as a number (R30). -/
theorem blue_toNat (w : Word) : (blue w).toNat = Formula.lane w 0 := by
  simp [blue, Formula.lane, BitVec.extractLsb'_toNat]

/-- encode as a number (40_codec.md R105). -/
theorem encodePixel_toNat (r g b : Channel) (m : Bool) :
    (encodePixel r g b m).toNat = Formula.encode r g b m.toNat := by
  cases m <;> simp [encodePixel, pack_toNat, quant_toNat, Formula.encode, Formula.quant]

/-- scale as a number (42_scaler.md R142). -/
theorem scaleWord_toNat (w : Word) (f : Half) (s : Bool) : (scaleWord w f s).toNat = Formula.scale w f s.toNat := by
  cases s <;>
    simp [scaleWord, pack_toNat, scaleLane_toNat, green_toNat, red_toNat, blue_toNat, Formula.scale, Formula.scaleLane]

/-- decode as a number (40_codec.md R106, R109). -/
theorem decodePixel_toNat (w : Word) : (decodePixel w).toNat = Formula.decode w := by
  have hg := (expand (green w)).isLt; have hb := (expand (blue w)).isLt
  simp only [decodePixel, BitVec.toNat_append]
  rw [← Nat.shiftLeft_add_eq_or_of_lt hg, ← Nat.shiftLeft_add_eq_or_of_lt hb]
  simp only [Nat.shiftLeft_eq, expand_toNat, green_toNat, red_toNat, blue_toNat, Formula.decode, Formula.expand]
  omega

end Sys2Proof.Machine
end

