-- ==== Sys2Proof/Laws/Flags.lean ====
section
/-! SUPPORT. The fields of a response word and of the error record (30_encoding.md R78, 10_state.md R26). -/

namespace Sys2Proof.Machine

@[simp] theorem rspStatus_response (status : BitVec 4) (data : Data) :
    rspStatus (response status data) = status := by
  apply BitVec.eq_of_getLsbD_eq; intro i hi
  have h1 : ¬ 28 + i < 24 := by omega
  have h2 : ¬ 28 + i - 24 < 4 := by omega
  have h3 : 28 + i - 24 - 4 = i := by omega
  simp only [rspStatus, response, BitVec.getLsbD_append, BitVec.getLsbD_extractLsb']
  simp [h1, h2, h3, hi]

@[simp] theorem rspData_response (status : BitVec 4) (data : Data) :
    rspData (response status data) = data := by
  apply BitVec.eq_of_getLsbD_eq; intro i hi
  simp only [rspData, response, BitVec.getLsbD_append, BitVec.getLsbD_extractLsb']
  simp [hi]

/-- rsp[27:24] is always 0 (R78). -/
theorem response_zero_bits (status : BitVec 4) (data : Data) : (response status data).extractLsb' 24 4 = 0 := by
  apply BitVec.eq_of_getLsbD_eq; intro i hi
  have h1 : ¬ 24 + i < 24 := by omega
  have h2 : 24 + i - 24 = i := by omega
  simp only [response, BitVec.getLsbD_append, BitVec.getLsbD_extractLsb']
  simp [h1, h2, hi]

@[simp] theorem errCause_errRecord (code : BitVec 4) (info : BitVec 20) : errCause (errRecord code info) = code := by
  apply BitVec.eq_of_getLsbD_eq; intro i hi
  simp only [errCause, errRecord, BitVec.getLsbD_append, BitVec.getLsbD_extractLsb']
  simp [hi]

@[simp] theorem errInfo_errRecord (code : BitVec 4) (info : BitVec 20) : errInfo (errRecord code info) = info := by
  apply BitVec.eq_of_getLsbD_eq; intro i hi
  have h1 : ¬ 4 + i < 4 := by omega
  have h2 : 4 + i - 4 = i := by omega
  simp only [errInfo, errRecord, BitVec.getLsbD_append, BitVec.getLsbD_extractLsb']
  simp [h1, h2, hi]

/-- No error has the code of OK (60_exceptions.md R201). -/
theorem ErrorCause.code_ne_zero (e : ErrorCause) : e.code ≠ 0 := by cases e <;> decide

/-- Error codes are 1 to 4 (60_exceptions.md R201). -/
theorem ErrorCause.code_le (e : ErrorCause) : e.code.toNat ≤ 4 := by cases e <;> decide

/-- An OK response is legal (R78). -/
theorem rspLegal_ok (data : Data) : rspLegal (response 0 data) :=
  ⟨by rw [rspStatus_response]; decide, response_zero_bits _ _⟩

/-- An error response is legal (R78). -/
theorem rspLegal_error (e : ErrorCause) (data : Data) : rspLegal (response e.code data) :=
  ⟨by rw [rspStatus_response]; exact e.code_le, response_zero_bits _ _⟩

/-- Raising an error keeps the record legal, and keeps a record that stands (60_exceptions.md R207, R209). -/
theorem errLegal_raiseError (e : ErrorCause) (info : BitVec 20) (s : State) (h : errLegal s.err) :
    errLegal (raiseError e info s).err := by
  show errLegal (if errCause s.err = 0 then errRecord e.code info else s.err)
  split
  · exact ⟨by rw [errCause_errRecord]; exact e.code_le, fun h0 => absurd (by simpa using h0) e.code_ne_zero⟩
  · exact h

/-- The block is idle exactly when no frame is in progress and no response is pending (10_state.md R28). -/
theorem busy_eq_false_iff (s : State) : s.busy = false ↔ s.seq.phase = .idle ∧ s.rsp = none := by
  simp [State.busy]

end Sys2Proof.Machine
end

