-- ==== Sys2Proof/Laws/Memory.lean ====
section
/-! SUPPORT. The laws of the buffer (20_memory.md R51): read after write, and the canonical form that every operation
keeps. -/

namespace Sys2Proof.Machine

/-- A word reads as it was last written (R51). -/
@[simp] theorem Memory.read_write_same (m : Memory) (a : Nat) (v : Word) :
    Memory.read? (Memory.write m a v) a = some v := by
  induction m with
  | nil => simp [Memory.write, Memory.read?]
  | cons cell rest ih =>
    obtain ⟨b, w⟩ := cell
    unfold Memory.write
    split
    · simp [Memory.read?]
    · split
      · simp [Memory.read?]
      · rename_i h; simp [Memory.read?, h, ih]

/-- A write leaves every other word (R51). -/
theorem Memory.read_write_other (m : Memory) {a c : Nat} (v : Word) (h : c ≠ a) :
    Memory.read? (Memory.write m a v) c = Memory.read? m c := by
  induction m with
  | nil => simp [Memory.write, Memory.read?, h]
  | cons cell rest ih =>
    obtain ⟨b, w⟩ := cell
    unfold Memory.write
    split
    · simp [Memory.read?, h]
    · split
      · rename_i hb; subst hb; simp [Memory.read?, h]
      · simp [Memory.read?, ih]

/-- Read after write, both cases at once. -/
theorem Memory.read_write (m : Memory) (a c : Nat) (v : Word) :
    Memory.read? (Memory.write m a v) c = if c = a then some v else Memory.read? m c := by
  split
  · next h => rw [h, Memory.read_write_same]
  · next h => rw [Memory.read_write_other m v h]

/-- A write keeps a lower bound below its address. -/
theorem Memory.above_write {b a : Nat} {m : Memory} (v : Word) (h : Memory.above b m = true) (hb : b < a) :
    Memory.above b (Memory.write m a v) = true := by
  induction m with
  | nil => simp [Memory.write, Memory.above, hb]
  | cons cell rest ih =>
    obtain ⟨c, w⟩ := cell
    simp only [Memory.above, Bool.and_eq_true, decide_eq_true_eq] at h
    unfold Memory.write
    split
    · simp [Memory.above, hb, h]
    · split
      · simp [Memory.above, hb, h]
      · simp [Memory.above, h, ih h.2]

/-- A lower bound carries over to any smaller one. -/
theorem Memory.above_of_lt {a b : Nat} {m : Memory} (hab : a < b) (h : Memory.above b m = true) :
    Memory.above a m = true := by
  induction m with
  | nil => rfl
  | cons cell rest ih =>
    simp only [Memory.above, Bool.and_eq_true, decide_eq_true_eq] at h ⊢
    exact ⟨by omega, ih h.2⟩

/-- A write keeps the canonical form. -/
theorem Memory.wf_write {m : Memory} (a : Nat) (v : Word) (h : Memory.wf m = true) :
    Memory.wf (Memory.write m a v) = true := by
  induction m with
  | nil => rfl
  | cons cell rest ih =>
    obtain ⟨b, w⟩ := cell
    simp only [Memory.wf, Bool.and_eq_true] at h
    unfold Memory.write
    split
    · next hab => simp [Memory.wf, Memory.above, h, hab, Memory.above_of_lt hab h.1]
    · split
      · next hab => subst hab; simp [Memory.wf, h]
      · next hab hne =>
        simp only [Memory.wf, Bool.and_eq_true]
        exact ⟨Memory.above_write v h.1 (by omega), ih h.2⟩

/-- A write lists no address but its own and the ones already listed. -/
theorem Memory.mem_write {m : Memory} {a : Nat} {v : Word} {cell : Cell} (h : cell ∈ Memory.write m a v) :
    cell = (a, v) ∨ cell ∈ m := by
  induction m with
  | nil => simpa [Memory.write] using h
  | cons head rest ih =>
    obtain ⟨b, w⟩ := head
    unfold Memory.write at h
    split at h
    · simpa using h
    · split at h
      · simp only [List.mem_cons] at h ⊢; tauto
      · simp only [List.mem_cons] at h ⊢
        rcases h with h | h
        · tauto
        · rcases ih h with h | h <;> tauto

/-- Nothing is written at or below a strict lower bound of the addresses. -/
theorem Memory.read_none_of_above {a c : Nat} {m : Memory} (h : Memory.above a m = true) (hc : c ≤ a) :
    Memory.read? m c = none := by
  induction m with
  | nil => rfl
  | cons cell rest ih =>
    obtain ⟨b, w⟩ := cell
    simp only [Memory.above, Bool.and_eq_true, decide_eq_true_eq] at h
    have hcb : c ≠ b := by omega
    simp [Memory.read?, hcb, ih h.2]

/-- Two memories in canonical form that read alike are the same list. -/
theorem Memory.eq_of_read_eq {m n : Memory} (hm : Memory.wf m = true) (hn : Memory.wf n = true)
    (h : ∀ a, Memory.read? m a = Memory.read? n a) : m = n := by
  induction m generalizing n with
  | nil =>
    cases n with
    | nil => rfl
    | cons cell rest => have := h cell.1; simp [Memory.read?] at this
  | cons cell rest ih =>
    cases n with
    | nil => have := h cell.1; simp [Memory.read?] at this
    | cons cell' rest' =>
      obtain ⟨a, v⟩ := cell
      obtain ⟨b, w⟩ := cell'
      simp only [Memory.wf, Bool.and_eq_true] at hm hn
      have hab : a = b := by
        rcases Nat.lt_trichotomy a b with hlt | heq | hgt
        · have := h a
          simp [Memory.read?, Nat.ne_of_lt hlt, Memory.read_none_of_above hn.1 (Nat.le_of_lt hlt)] at this
        · exact heq
        · have := h b
          simp [Memory.read?, Nat.ne_of_lt hgt, Memory.read_none_of_above hm.1 (Nat.le_of_lt hgt)] at this
      subst hab
      have hv : v = w := by simpa [Memory.read?] using h a
      subst hv
      have hrest : rest = rest' := ih hm.2 hn.2 fun c => by
        by_cases hc : c = a
        · subst hc
          rw [Memory.read_none_of_above hm.1 (Nat.le_refl _), Memory.read_none_of_above hn.1 (Nat.le_refl _)]
        · simpa [Memory.read?, hc] using h c
      rw [hrest]

end Sys2Proof.Machine
end

