-- ==== Sys2Proof/Laws/State.lean ====
section
/-! SUPPORT. One lemma per field per update of the state: what each shared update writes and what it leaves. -/

namespace Sys2Proof.Machine

/-! ## MemWrite (20_memory.md R51) -/

@[simp] theorem memWrite_buf (s : State) (a : Nat) (v : Word) : (s.memWrite a v).buf = Memory.write s.buf a v := rfl
@[simp] theorem memWrite_numLeds (s : State) (a : Nat) (v : Word) : (s.memWrite a v).numLeds = s.numLeds := rfl
@[simp] theorem memWrite_cap (s : State) (a : Nat) (v : Word) : (s.memWrite a v).cap = s.cap := rfl
@[simp] theorem memWrite_mode (s : State) (a : Nat) (v : Word) : (s.memWrite a v).mode = s.mode := rfl
@[simp] theorem memWrite_err (s : State) (a : Nat) (v : Word) : (s.memWrite a v).err = s.err := rfl
@[simp] theorem memWrite_seq (s : State) (a : Nat) (v : Word) : (s.memWrite a v).seq = s.seq := rfl
@[simp] theorem memWrite_rsp (s : State) (a : Nat) (v : Word) : (s.memWrite a v).rsp = s.rsp := rfl
@[simp] theorem memWrite_wire (s : State) (a : Nat) (v : Word) : (s.memWrite a v).wire = s.wire := rfl
@[simp] theorem memWrite_taken (s : State) (a : Nat) (v : Word) : (s.memWrite a v).taken = s.taken := rfl
@[simp] theorem memWrite_cmds (s : State) (a : Nat) (v : Word) : (s.memWrite a v).cmds = s.cmds := rfl
@[simp] theorem memWrite_env (s : State) (a : Nat) (v : Word) : (s.memWrite a v).env = s.env := rfl
@[simp] theorem memWrite_draws (s : State) (a : Nat) (v : Word) : (s.memWrite a v).draws = s.draws := rfl

/-! ## Respond (30_encoding.md R78) -/

@[simp] theorem respond_buf (s : State) (data : Data) : (respond data s).buf = s.buf := rfl
@[simp] theorem respond_numLeds (s : State) (data : Data) : (respond data s).numLeds = s.numLeds := rfl
@[simp] theorem respond_cap (s : State) (data : Data) : (respond data s).cap = s.cap := rfl
@[simp] theorem respond_mode (s : State) (data : Data) : (respond data s).mode = s.mode := rfl
@[simp] theorem respond_err (s : State) (data : Data) : (respond data s).err = s.err := rfl
@[simp] theorem respond_seq (s : State) (data : Data) : (respond data s).seq = s.seq := rfl
@[simp] theorem respond_rsp (s : State) (data : Data) : (respond data s).rsp = some (response 0 data) := rfl
@[simp] theorem respond_wire (s : State) (data : Data) : (respond data s).wire = s.wire := rfl
@[simp] theorem respond_taken (s : State) (data : Data) : (respond data s).taken = s.taken := rfl
@[simp] theorem respond_cmds (s : State) (data : Data) : (respond data s).cmds = s.cmds := rfl
@[simp] theorem respond_env (s : State) (data : Data) : (respond data s).env = s.env := rfl
@[simp] theorem respond_draws (s : State) (data : Data) : (respond data s).draws = s.draws := rfl

/-! ## Raise (60_exceptions.md R207) -/

@[simp] theorem raiseError_buf (s : State) (e : ErrorCause) (info : BitVec 20) : (raiseError e info s).buf = s.buf := rfl
@[simp] theorem raiseError_numLeds (s : State) (e : ErrorCause) (info : BitVec 20) : (raiseError e info s).numLeds = s.numLeds := rfl
@[simp] theorem raiseError_cap (s : State) (e : ErrorCause) (info : BitVec 20) : (raiseError e info s).cap = s.cap := rfl
@[simp] theorem raiseError_mode (s : State) (e : ErrorCause) (info : BitVec 20) : (raiseError e info s).mode = s.mode := rfl
@[simp] theorem raiseError_err (s : State) (e : ErrorCause) (info : BitVec 20) : (raiseError e info s).err = if errCause s.err = 0 then errRecord e.code info else s.err := rfl
@[simp] theorem raiseError_seq (s : State) (e : ErrorCause) (info : BitVec 20) : (raiseError e info s).seq = s.seq := rfl
@[simp] theorem raiseError_rsp (s : State) (e : ErrorCause) (info : BitVec 20) : (raiseError e info s).rsp = some (response e.code (info.setWidth 24)) := rfl
@[simp] theorem raiseError_wire (s : State) (e : ErrorCause) (info : BitVec 20) : (raiseError e info s).wire = s.wire := rfl
@[simp] theorem raiseError_taken (s : State) (e : ErrorCause) (info : BitVec 20) : (raiseError e info s).taken = s.taken := rfl
@[simp] theorem raiseError_cmds (s : State) (e : ErrorCause) (info : BitVec 20) : (raiseError e info s).cmds = s.cmds := rfl
@[simp] theorem raiseError_env (s : State) (e : ErrorCause) (info : BitVec 20) : (raiseError e info s).env = s.env := rfl
@[simp] theorem raiseError_draws (s : State) (e : ErrorCause) (info : BitVec 20) : (raiseError e info s).draws = s.draws := rfl

/-! ## The re-arming of ERR (60_exceptions.md R208) -/

@[simp] theorem clearError_buf (s : State) : (clearError s).buf = s.buf := rfl
@[simp] theorem clearError_numLeds (s : State) : (clearError s).numLeds = s.numLeds := rfl
@[simp] theorem clearError_cap (s : State) : (clearError s).cap = s.cap := rfl
@[simp] theorem clearError_mode (s : State) : (clearError s).mode = s.mode := rfl
@[simp] theorem clearError_err (s : State) : (clearError s).err = 0 := rfl
@[simp] theorem clearError_seq (s : State) : (clearError s).seq = s.seq := rfl
@[simp] theorem clearError_rsp (s : State) : (clearError s).rsp = s.rsp := rfl
@[simp] theorem clearError_wire (s : State) : (clearError s).wire = s.wire := rfl
@[simp] theorem clearError_taken (s : State) : (clearError s).taken = s.taken := rfl
@[simp] theorem clearError_cmds (s : State) : (clearError s).cmds = s.cmds := rfl
@[simp] theorem clearError_env (s : State) : (clearError s).env = s.env := rfl
@[simp] theorem clearError_draws (s : State) : (clearError s).draws = s.draws := rfl

/-! ## The NUMLEDS write (41_buffer.md R121) -/

@[simp] theorem setNumLeds_buf (s : State) (n : Half) : (setNumLeds n s).buf = s.buf := rfl
@[simp] theorem setNumLeds_numLeds (s : State) (n : Half) : (setNumLeds n s).numLeds = n := rfl
@[simp] theorem setNumLeds_cap (s : State) (n : Half) : (setNumLeds n s).cap = s.cap := rfl
@[simp] theorem setNumLeds_mode (s : State) (n : Half) : (setNumLeds n s).mode = s.mode := rfl
@[simp] theorem setNumLeds_err (s : State) (n : Half) : (setNumLeds n s).err = s.err := rfl
@[simp] theorem setNumLeds_seq (s : State) (n : Half) : (setNumLeds n s).seq = s.seq := rfl
@[simp] theorem setNumLeds_rsp (s : State) (n : Half) : (setNumLeds n s).rsp = s.rsp := rfl
@[simp] theorem setNumLeds_wire (s : State) (n : Half) : (setNumLeds n s).wire = s.wire := rfl
@[simp] theorem setNumLeds_taken (s : State) (n : Half) : (setNumLeds n s).taken = s.taken := rfl
@[simp] theorem setNumLeds_cmds (s : State) (n : Half) : (setNumLeds n s).cmds = s.cmds := rfl
@[simp] theorem setNumLeds_env (s : State) (n : Half) : (setNumLeds n s).env = s.env := rfl
@[simp] theorem setNumLeds_draws (s : State) (n : Half) : (setNumLeds n s).draws = s.draws := rfl

/-! ## The MODE write (45_system.md R187) -/

@[simp] theorem setMode_buf (s : State) (value : Data) : (setMode value s).buf = s.buf := rfl
@[simp] theorem setMode_numLeds (s : State) (value : Data) : (setMode value s).numLeds = s.numLeds := rfl
@[simp] theorem setMode_cap (s : State) (value : Data) : (setMode value s).cap = s.cap := rfl
@[simp] theorem setMode_mode (s : State) (value : Data) : (setMode value s).mode = value.setWidth 2 := rfl
@[simp] theorem setMode_err (s : State) (value : Data) : (setMode value s).err = s.err := rfl
@[simp] theorem setMode_seq (s : State) (value : Data) : (setMode value s).seq = s.seq := rfl
@[simp] theorem setMode_rsp (s : State) (value : Data) : (setMode value s).rsp = s.rsp := rfl
@[simp] theorem setMode_wire (s : State) (value : Data) : (setMode value s).wire = s.wire := rfl
@[simp] theorem setMode_taken (s : State) (value : Data) : (setMode value s).taken = s.taken := rfl
@[simp] theorem setMode_cmds (s : State) (value : Data) : (setMode value s).cmds = s.cmds := rfl
@[simp] theorem setMode_env (s : State) (value : Data) : (setMode value s).env = s.env := rfl
@[simp] theorem setMode_draws (s : State) (value : Data) : (setMode value s).draws = s.draws := rfl

/-! ## Start (43_serializer.md R163) -/

@[simp] theorem startFrame_buf (s : State) (d : BitVec 16) : (startFrame d s).buf = s.buf := rfl
@[simp] theorem startFrame_numLeds (s : State) (d : BitVec 16) : (startFrame d s).numLeds = s.numLeds := rfl
@[simp] theorem startFrame_cap (s : State) (d : BitVec 16) : (startFrame d s).cap = s.cap := rfl
@[simp] theorem startFrame_mode (s : State) (d : BitVec 16) : (startFrame d s).mode = s.mode := rfl
@[simp] theorem startFrame_err (s : State) (d : BitVec 16) : (startFrame d s).err = s.err := rfl
@[simp] theorem startFrame_seq (s : State) (d : BitVec 16) : (startFrame d s).seq = { phase := .rst0, idx := 0, dly := d, cnt := 0 } := rfl
@[simp] theorem startFrame_rsp (s : State) (d : BitVec 16) : (startFrame d s).rsp = s.rsp := rfl
@[simp] theorem startFrame_wire (s : State) (d : BitVec 16) : (startFrame d s).wire = s.wire := rfl
@[simp] theorem startFrame_taken (s : State) (d : BitVec 16) : (startFrame d s).taken = s.taken := rfl
@[simp] theorem startFrame_cmds (s : State) (d : BitVec 16) : (startFrame d s).cmds = s.cmds := rfl
@[simp] theorem startFrame_env (s : State) (d : BitVec 16) : (startFrame d s).env = s.env := rfl
@[simp] theorem startFrame_draws (s : State) (d : BitVec 16) : (startFrame d s).draws = s.draws := rfl

/-! ## PHASE <- p (43_serializer.md R163) -/

@[simp] theorem withPhase_buf (s : State) (p : Phase) : (s.withPhase p).buf = s.buf := rfl
@[simp] theorem withPhase_numLeds (s : State) (p : Phase) : (s.withPhase p).numLeds = s.numLeds := rfl
@[simp] theorem withPhase_cap (s : State) (p : Phase) : (s.withPhase p).cap = s.cap := rfl
@[simp] theorem withPhase_mode (s : State) (p : Phase) : (s.withPhase p).mode = s.mode := rfl
@[simp] theorem withPhase_err (s : State) (p : Phase) : (s.withPhase p).err = s.err := rfl
@[simp] theorem withPhase_seq (s : State) (p : Phase) : (s.withPhase p).seq = { s.seq with phase := p } := rfl
@[simp] theorem withPhase_rsp (s : State) (p : Phase) : (s.withPhase p).rsp = s.rsp := rfl
@[simp] theorem withPhase_wire (s : State) (p : Phase) : (s.withPhase p).wire = s.wire := rfl
@[simp] theorem withPhase_taken (s : State) (p : Phase) : (s.withPhase p).taken = s.taken := rfl
@[simp] theorem withPhase_cmds (s : State) (p : Phase) : (s.withPhase p).cmds = s.cmds := rfl
@[simp] theorem withPhase_env (s : State) (p : Phase) : (s.withPhase p).env = s.env := rfl
@[simp] theorem withPhase_draws (s : State) (p : Phase) : (s.withPhase p).draws = s.draws := rfl

/-! ## The wire trace (00_scope.md R12) -/

@[simp] theorem record_buf (s : State) (e : WireEvent) : (s.record e).buf = s.buf := rfl
@[simp] theorem record_numLeds (s : State) (e : WireEvent) : (s.record e).numLeds = s.numLeds := rfl
@[simp] theorem record_cap (s : State) (e : WireEvent) : (s.record e).cap = s.cap := rfl
@[simp] theorem record_mode (s : State) (e : WireEvent) : (s.record e).mode = s.mode := rfl
@[simp] theorem record_err (s : State) (e : WireEvent) : (s.record e).err = s.err := rfl
@[simp] theorem record_seq (s : State) (e : WireEvent) : (s.record e).seq = s.seq := rfl
@[simp] theorem record_rsp (s : State) (e : WireEvent) : (s.record e).rsp = s.rsp := rfl
@[simp] theorem record_wire (s : State) (e : WireEvent) : (s.record e).wire = s.wire ++ [e] := rfl
@[simp] theorem record_taken (s : State) (e : WireEvent) : (s.record e).taken = s.taken := rfl
@[simp] theorem record_cmds (s : State) (e : WireEvent) : (s.record e).cmds = s.cmds := rfl
@[simp] theorem record_env (s : State) (e : WireEvent) : (s.record e).env = s.env := rfl
@[simp] theorem record_draws (s : State) (e : WireEvent) : (s.record e).draws = s.draws := rfl

/-! ## A transfer that ended ok (43_serializer.md R160) -/

@[simp] theorem sentWord_buf (s : State) (w : Word) : (sentWord w s).buf = s.buf := rfl
@[simp] theorem sentWord_numLeds (s : State) (w : Word) : (sentWord w s).numLeds = s.numLeds := rfl
@[simp] theorem sentWord_cap (s : State) (w : Word) : (sentWord w s).cap = s.cap := rfl
@[simp] theorem sentWord_mode (s : State) (w : Word) : (sentWord w s).mode = s.mode := rfl
@[simp] theorem sentWord_err (s : State) (w : Word) : (sentWord w s).err = s.err := rfl
@[simp] theorem sentWord_seq (s : State) (w : Word) : (sentWord w s).seq = { s.seq with cnt := s.seq.cnt + 1 } := rfl
@[simp] theorem sentWord_rsp (s : State) (w : Word) : (sentWord w s).rsp = s.rsp := rfl
@[simp] theorem sentWord_wire (s : State) (w : Word) : (sentWord w s).wire = s.wire ++ [.word w] := rfl
@[simp] theorem sentWord_taken (s : State) (w : Word) : (sentWord w s).taken = s.taken := rfl
@[simp] theorem sentWord_cmds (s : State) (w : Word) : (sentWord w s).cmds = s.cmds := rfl
@[simp] theorem sentWord_env (s : State) (w : Word) : (sentWord w s).env = s.env := rfl
@[simp] theorem sentWord_draws (s : State) (w : Word) : (sentWord w s).draws = s.draws := rfl

/-! ## A presented command (30_encoding.md R85) -/

@[simp] theorem presentCommand_buf (s : State) (w : Command) : (presentCommand w s).buf = s.buf := rfl
@[simp] theorem presentCommand_numLeds (s : State) (w : Command) : (presentCommand w s).numLeds = s.numLeds := rfl
@[simp] theorem presentCommand_cap (s : State) (w : Command) : (presentCommand w s).cap = s.cap := rfl
@[simp] theorem presentCommand_mode (s : State) (w : Command) : (presentCommand w s).mode = s.mode := rfl
@[simp] theorem presentCommand_err (s : State) (w : Command) : (presentCommand w s).err = s.err := rfl
@[simp] theorem presentCommand_seq (s : State) (w : Command) : (presentCommand w s).seq = s.seq := rfl
@[simp] theorem presentCommand_rsp (s : State) (w : Command) : (presentCommand w s).rsp = s.rsp := rfl
@[simp] theorem presentCommand_wire (s : State) (w : Command) : (presentCommand w s).wire = s.wire := rfl
@[simp] theorem presentCommand_taken (s : State) (w : Command) : (presentCommand w s).taken = s.taken := rfl
@[simp] theorem presentCommand_cmds (s : State) (w : Command) : (presentCommand w s).cmds = s.cmds ++ [w] := rfl
@[simp] theorem presentCommand_env (s : State) (w : Command) : (presentCommand w s).env = s.env := rfl
@[simp] theorem presentCommand_draws (s : State) (w : Command) : (presentCommand w s).draws = s.draws := rfl

/-! ## Reset (70_reset_and_hazards.md R230) -/

@[simp] theorem rst_buf (s : State) : (s.rst).buf = s.buf := rfl
@[simp] theorem rst_numLeds (s : State) : (s.rst).numLeds = 0 := rfl
@[simp] theorem rst_cap (s : State) : (s.rst).cap = s.cap := rfl
@[simp] theorem rst_mode (s : State) : (s.rst).mode = 0 := rfl
@[simp] theorem rst_err (s : State) : (s.rst).err = 0 := rfl
@[simp] theorem rst_seq (s : State) : (s.rst).seq = Seq.reset := rfl
@[simp] theorem rst_rsp (s : State) : (s.rst).rsp = none := rfl
@[simp] theorem rst_wire (s : State) : (s.rst).wire = s.wire := rfl
@[simp] theorem rst_taken (s : State) : (s.rst).taken = s.taken := rfl
@[simp] theorem rst_cmds (s : State) : (s.rst).cmds = s.cmds := rfl
@[simp] theorem rst_env (s : State) : (s.rst).env = s.env := rfl
@[simp] theorem rst_draws (s : State) : (s.rst).draws = s.draws := rfl

/-! ## MemRead (20_memory.md R51, R62) -/

@[simp] theorem memRead_buf (s : State) (a : Nat) : (s.memRead a).2.buf = s.buf := by
  unfold State.memRead; split <;> rfl
@[simp] theorem memRead_numLeds (s : State) (a : Nat) : (s.memRead a).2.numLeds = s.numLeds := by
  unfold State.memRead; split <;> rfl
@[simp] theorem memRead_cap (s : State) (a : Nat) : (s.memRead a).2.cap = s.cap := by
  unfold State.memRead; split <;> rfl
@[simp] theorem memRead_mode (s : State) (a : Nat) : (s.memRead a).2.mode = s.mode := by
  unfold State.memRead; split <;> rfl
@[simp] theorem memRead_err (s : State) (a : Nat) : (s.memRead a).2.err = s.err := by
  unfold State.memRead; split <;> rfl
@[simp] theorem memRead_seq (s : State) (a : Nat) : (s.memRead a).2.seq = s.seq := by
  unfold State.memRead; split <;> rfl
@[simp] theorem memRead_rsp (s : State) (a : Nat) : (s.memRead a).2.rsp = s.rsp := by
  unfold State.memRead; split <;> rfl
@[simp] theorem memRead_wire (s : State) (a : Nat) : (s.memRead a).2.wire = s.wire := by
  unfold State.memRead; split <;> rfl
@[simp] theorem memRead_taken (s : State) (a : Nat) : (s.memRead a).2.taken = s.taken := by
  unfold State.memRead; split <;> rfl
@[simp] theorem memRead_cmds (s : State) (a : Nat) : (s.memRead a).2.cmds = s.cmds := by
  unfold State.memRead; split <;> rfl
@[simp] theorem memRead_env (s : State) (a : Nat) : (s.memRead a).2.env = s.env := by
  unfold State.memRead; split <;> rfl

/-- Reading a written word gives it and changes nothing (R51). -/
theorem memRead_of_written {s : State} {a : Nat} {w : Word} (h : Memory.read? s.buf a = some w) :
    s.memRead a = (w, s) := by
  simp [State.memRead, h]

/-- The word read is the written one wherever one is written (R51). -/
theorem memRead_word {s : State} {a : Nat} {w : Word} (h : Memory.read? s.buf a = some w) :
    (s.memRead a).1 = w := by
  rw [memRead_of_written h]

/-- Reading a never-written word is one more draw of a free value (R62). -/
theorem memRead_of_neverWritten {s : State} {a : Nat} (h : Memory.read? s.buf a = none) :
    s.memRead a = (Config.neverWritten a s.draws, { s with draws := s.draws + 1 }) := by
  simp [State.memRead, h]

/-- A read changes no field but the draw counter (R54). -/
theorem memRead_state (s : State) (a : Nat) :
    (s.memRead a).2 = { s with draws := (s.memRead a).2.draws } := by
  unfold State.memRead; split <;> rfl

end Sys2Proof.Machine
end

