-- ==== Sys2Proof/Laws/Ops.lean ====
section
/-! SUPPORT. What each shared operation can do, said once: the buffer loops, the checks before a command's access, and the
canonical form of BUF that all of them keep. -/

namespace Sys2Proof.Machine

/-! ## Writing the same word to consecutive addresses (41_buffer.md R122) -/

/-- The loop changes BUF only. -/
theorem fillFrom_state (v : Word) (n i : Nat) (s : State) :
    fillFrom v n i s = { s with buf := (fillFrom v n i s).buf } := by
  induction n generalizing i s with
  | zero => rfl
  | succ n ih => rw [fillFrom, ih]; rfl

/-- The loop writes exactly the words from `i` to `i + n - 1`. -/
theorem fillFrom_read (v : Word) (n i a : Nat) (s : State) :
    Memory.read? (fillFrom v n i s).buf a = if i ≤ a ∧ a < i + n then some v else Memory.read? s.buf a := by
  induction n generalizing i s with
  | zero =>
    have hn : ¬ (i ≤ a ∧ a < i + 0) := by omega
    rw [if_neg hn]; rfl
  | succ n ih =>
    rw [fillFrom, ih, memWrite_buf, Memory.read_write]
    by_cases ha : a = i
    · have h1 : ¬ (i + 1 ≤ a ∧ a < i + 1 + n) := by omega
      have h2 : i ≤ a ∧ a < i + (n + 1) := by omega
      rw [if_neg h1, if_pos ha, if_pos h2]
    · by_cases hr : i + 1 ≤ a ∧ a < i + 1 + n
      · have h2 : i ≤ a ∧ a < i + (n + 1) := by omega
        rw [if_pos hr, if_pos h2]
      · have h2 : ¬ (i ≤ a ∧ a < i + (n + 1)) := by omega
        rw [if_neg hr, if_neg ha, if_neg h2]

/-- A write below C keeps BUF legal. -/
theorem bufLegal_write {c a : Nat} {m : Memory} (v : Word) (h : bufLegal c m) (ha : a < c) :
    bufLegal c (Memory.write m a v) := by
  refine ⟨Memory.wf_write a v h.1, fun cell hc => ?_⟩
  rcases Memory.mem_write hc with rfl | hc
  · exact ha
  · exact h.2 cell hc

/-- The loop keeps BUF legal when its addresses exist. -/
theorem fillFrom_bufLegal {c : Nat} (v : Word) (n i : Nat) (s : State) (h : bufLegal c s.buf) (hi : i + n ≤ c) :
    bufLegal c (fillFrom v n i s).buf := by
  induction n generalizing i s with
  | zero => exact h
  | succ n ih => exact ih (i + 1) (s.memWrite i v) (bufLegal_write v h (by omega)) (by omega)

/-- CLEAR's loop changes BUF only. -/
theorem clearWords_state (n : Nat) (s : State) : clearWords n s = { s with buf := (clearWords n s).buf } :=
  fillFrom_state offPixel n 0 s

/-- CLEAR's loop makes exactly the first `n` words the all-off pixel (R122). -/
theorem clearWords_read (n a : Nat) (s : State) :
    Memory.read? (clearWords n s).buf a = if a < n then some offPixel else Memory.read? s.buf a := by
  have h := fillFrom_read offPixel n 0 a s
  simpa [clearWords] using h

/-! ## Rewriting consecutive words (42_scaler.md R146, R147) -/

/-- One rewriting changes BUF and the draw counter only. -/
theorem updateWord_state (f : Word → Word) (i : Nat) (s : State) :
    updateWord f i s = { s with buf := (updateWord f i s).buf, draws := (updateWord f i s).draws } := by
  simp only [updateWord, State.memWrite]
  rw [memRead_state]

/-- One rewriting leaves every other word. -/
theorem updateWord_read_other (f : Word → Word) {i a : Nat} (s : State) (h : a ≠ i) :
    Memory.read? (updateWord f i s).buf a = Memory.read? s.buf a := by
  simp [updateWord, Memory.read_write_other _ _ h]

/-- One rewriting stores `f` of the word read. -/
@[simp] theorem updateWord_read_same (f : Word → Word) (i : Nat) (s : State) :
    Memory.read? (updateWord f i s).buf i = some (f (s.memRead i).1) := by
  simp [updateWord]

/-- The loop changes BUF and the draw counter only. -/
theorem updateFrom_state (f : Word → Word) (n i : Nat) (s : State) :
    updateFrom f n i s = { s with buf := (updateFrom f n i s).buf, draws := (updateFrom f n i s).draws } := by
  induction n generalizing i s with
  | zero => rfl
  | succ n ih => rw [updateFrom, ih, updateWord_state]

/-- The loop leaves every word outside its range. -/
theorem updateFrom_read_outside (f : Word → Word) {n i a : Nat} (s : State) (h : a < i ∨ i + n ≤ a) :
    Memory.read? (updateFrom f n i s).buf a = Memory.read? s.buf a := by
  induction n generalizing i s with
  | zero => rfl
  | succ n ih =>
    rw [updateFrom, ih _ (by omega), updateWord_read_other f s (by omega)]

/-- The loop stores `f` of one word in each place of its range: of the word written there, where one is. -/
theorem updateFrom_read_inside (f : Word → Word) {n i a : Nat} (s : State) (h : i ≤ a ∧ a < i + n) :
    ∃ w, (∀ v, Memory.read? s.buf a = some v → w = v) ∧
      Memory.read? (updateFrom f n i s).buf a = some (f w) := by
  induction n generalizing i s with
  | zero => omega
  | succ n ih =>
    rw [updateFrom]
    by_cases ha : a = i
    · subst ha
      refine ⟨(s.memRead a).1, fun v hv => memRead_word hv, ?_⟩
      rw [updateFrom_read_outside f _ (by omega), updateWord_read_same]
    · obtain ⟨w, hw, hr⟩ := ih (updateWord f i s) (i := i + 1) (by omega)
      exact ⟨w, fun v hv => hw v (by rw [updateWord_read_other f s ha]; exact hv), hr⟩

/-- One rewriting keeps BUF legal when its address exists. -/
theorem updateWord_bufLegal {c i : Nat} (f : Word → Word) (s : State) (h : bufLegal c s.buf) (hi : i < c) :
    bufLegal c (updateWord f i s).buf := by
  simp only [updateWord, memWrite_buf, memRead_buf]
  exact bufLegal_write _ h hi

/-- The loop keeps BUF legal when its addresses exist. -/
theorem updateFrom_bufLegal {c : Nat} (f : Word → Word) (n i : Nat) (s : State) (h : bufLegal c s.buf)
    (hi : i + n ≤ c) : bufLegal c (updateFrom f n i s).buf := by
  induction n generalizing i s with
  | zero => exact h
  | succ n ih => exact ih (i + 1) _ (updateWord_bufLegal f s h (by omega)) (by omega)

/-- SCALEALL's loop changes BUF and the draw counter only. -/
theorem scaleWords_state (n : Nat) (factor : Half) (s : State) :
    scaleWords n factor s =
      { s with buf := (scaleWords n factor s).buf, draws := (scaleWords n factor s).draws } :=
  updateFrom_state _ n 0 s

/-! ## The checks before a command's access -/

/-- The index check passes and the address exists: the access is made (41_buffer.md R120). -/
theorem withIndex_access {n : Half} {s : State} (access : State → State) (h : n.toNat < s.numLeds.toNat)
    (hc : n.toNat < s.cap.toNat) : withIndex n s access = .next (access s) := by
  simp [withIndex, State.addressable, Nat.not_le.mpr h, hc]

/-- The index check fails: IndexOutOfRange and no access (R120, R202). -/
theorem withIndex_refuses {n : Half} {s : State} (access : State → State) (h : s.numLeds.toNat ≤ n.toNat) :
    withIndex n s access = .next (raiseError .indexOutOfRange (n.setWidth 20) s) := by
  simp [withIndex, h]

/-- The two ways an indexed command answers a next state. -/
theorem withIndex_cases {n : Half} {s t : State} {access : State → State} (h : withIndex n s access = .next t) :
    (s.numLeds.toNat ≤ n.toNat ∧ t = raiseError .indexOutOfRange (n.setWidth 20) s) ∨
    (n.toNat < s.numLeds.toNat ∧ n.toNat < s.cap.toNat ∧ t = access s) := by
  unfold withIndex at h
  split at h
  · next hn => cases h; exact .inl ⟨hn, rfl⟩
  · next hn =>
    split at h
    · next hc =>
      cases h
      exact .inr ⟨by omega, by simpa [State.addressable] using hc, rfl⟩
    · cases h

/-- The two ways a command with a capacity check answers a next state (R121, R180). -/
theorem withCapacity_cases {n : Half} {s t : State} {rest : State → State} (h : withCapacity n s rest = .next t) :
    (s.cap.toNat < n.toNat ∧ t = raiseError .capacityViolation (n.setWidth 20) s) ∨
    (n.toNat ≤ s.cap.toNat ∧ t = rest s) := by
  unfold withCapacity at h
  split at h
  · next hn => cases h; exact .inl ⟨hn, rfl⟩
  · next hn => cases h; exact .inr ⟨by omega, rfl⟩

/-- A batch answers a next state only when its addresses exist (20_memory.md R56). -/
theorem withBatch_cases {s t : State} {batch : State → State} (h : withBatch s batch = .next t) :
    s.numLeds.toNat ≤ s.cap.toNat ∧ t = batch s := by
  unfold withBatch at h
  split at h
  · next hn => cases h; exact ⟨by simpa [State.allAddressable] using hn, rfl⟩
  · cases h

/-- The owner's access answers a next state only when the block is idle and the address exists (20_memory.md R60). -/
theorem ownerAccess_cases {a : BitVec 16} {s t : State} {access : State → State}
    (h : ownerAccess a s access = .next t) :
    s.busy = false ∧ a.toNat < s.cap.toNat ∧ t = access s := by
  unfold ownerAccess at h
  split at h
  · cases h
  · next hb =>
    split at h
    · next hc => cases h; exact ⟨by simpa using hb, by simpa [State.addressable] using hc, rfl⟩
    · cases h

end Sys2Proof.Machine
end

