-- ==== Sys2Proof/Laws/Serializer.lean ====
section
/-! SUPPORT. What the serializer can do on a move of the transport or the delay primitive (43_serializer.md R163), and what
every such move leaves as it was. -/

namespace Sys2Proof.Machine

/-- advance (R163). -/
theorem advanceFrame_cases (s : State) :
    (s.seq.idx.toNat + 1 = s.numLeds.toNat ∧ advanceFrame s = finishFrame s) ∨
    (s.seq.idx.toNat + 1 ≠ s.numLeds.toNat ∧
      advanceFrame s = { s with seq := { s.seq with idx := s.seq.idx + 1, phase := .pix } }) := by
  unfold advanceFrame
  split
  · next h => exact .inl ⟨h, rfl⟩
  · next h => exact .inr ⟨h, rfl⟩

/-- The ways a transport move answers a next state: the table of R163. -/
theorem transferStep_cases {fail : Bool} {s t : State} (h : transferStep fail s = .next t) :
    ((s.seq.phase = .idle ∨ s.seq.phase = .wait) ∧ t = s) ∨
    ((s.seq.phase = .rst0 ∨ s.seq.phase = .rst1) ∧ fail = true ∧ t = failedWord 0 s) ∨
    (s.seq.phase = .rst0 ∧ fail = false ∧ t = (sentWord 0 s).withPhase .rst1) ∨
    (s.seq.phase = .rst1 ∧ fail = false ∧ t = afterHeader (sentWord 0 s)) ∨
    (s.seq.phase = .pix ∧ s.seq.idx.toNat < s.cap.toNat ∧
      t = (if fail then failedWord (s.memRead s.seq.idx.toNat).1 (s.memRead s.seq.idx.toNat).2
           else afterPixel (sentWord (s.memRead s.seq.idx.toNat).1 (s.memRead s.seq.idx.toNat).2))) := by
  unfold transferStep at h
  split at h <;> rename_i hp
  · cases h; exact .inl ⟨.inl hp, rfl⟩
  · cases h; exact .inl ⟨.inr hp, rfl⟩
  · cases fail <;> cases h
    · exact .inr (.inr (.inl ⟨hp, rfl, rfl⟩))
    · exact .inr (.inl ⟨.inl hp, rfl, rfl⟩)
  · cases fail <;> cases h
    · exact .inr (.inr (.inr (.inl ⟨hp, rfl, rfl⟩)))
    · exact .inr (.inl ⟨.inr hp, rfl, rfl⟩)
  · split at h
    · next hc => cases h; exact .inr (.inr (.inr (.inr ⟨hp, by simpa [State.addressable] using hc, rfl⟩)))
    · cases h

/-- The ways a delay move answers: only WAIT waits for one (R163). -/
theorem delayStep_cases {s t : State} (h : delayStep s = .next t) :
    (s.seq.phase ≠ .wait ∧ t = s) ∨
    (s.seq.phase = .wait ∧ t = advanceFrame (s.record (.delay s.seq.dly))) := by
  unfold delayStep at h
  split at h <;> rename_i hp <;> cases h <;> simp [hp]

/-- advance changes SEQ and the pending response only. -/
theorem advanceFrame_state (s : State) :
    advanceFrame s = { s with seq := (advanceFrame s).seq, rsp := (advanceFrame s).rsp } := by
  unfold advanceFrame; split <;> rfl

/-- The end of the header changes SEQ and the pending response only. -/
theorem afterHeader_state (s : State) :
    afterHeader s = { s with seq := (afterHeader s).seq, rsp := (afterHeader s).rsp } := by
  unfold afterHeader; split <;> rfl

/-- The end of a pixel word changes SEQ and the pending response only. -/
theorem afterPixel_state (s : State) :
    afterPixel s = { s with seq := (afterPixel s).seq, rsp := (afterPixel s).rsp } := by
  unfold afterPixel
  split
  · exact advanceFrame_state s
  · rfl

/-- The serializer never writes BUF, NUMLEDS or MODE (R164, R169): a transport move changes at most SEQ, ERR, the
response, the wire trace and the draw counter. -/
theorem transferStep_state {fail : Bool} {s t : State} (h : transferStep fail s = .next t) :
    t = { s with seq := t.seq, err := t.err, rsp := t.rsp, wire := t.wire, draws := t.draws } := by
  rcases transferStep_cases h with ⟨-, rfl⟩ | ⟨-, -, rfl⟩ | ⟨-, -, rfl⟩ | ⟨-, -, rfl⟩ | ⟨-, -, rfl⟩
  · rfl
  · rfl
  · rfl
  · rw [afterHeader_state]; rfl
  · cases fail
    · simp only [Bool.false_eq_true, if_false]
      rw [afterPixel_state, sentWord, State.record, memRead_state]
    · simp only [if_true]
      rw [failedWord, abortFrame, raiseError, State.withPhase, State.record, memRead_state]

/-- A delay move changes at most SEQ, the response and the wire trace. -/
theorem delayStep_state {s t : State} (h : delayStep s = .next t) :
    t = { s with seq := t.seq, rsp := t.rsp, wire := t.wire } := by
  rcases delayStep_cases h with ⟨-, rfl⟩ | ⟨-, rfl⟩
  · rfl
  · rw [advanceFrame_state]; rfl

/-- What the transport port offers depends on SEQ, BUF and the draw counter only (R160). -/
theorem txPort_congr {s t : State} (hq : t.seq = s.seq) (hb : t.buf = s.buf) (hd : t.draws = s.draws) :
    t.txPort = s.txPort := by
  simp only [State.txPort, State.memRead, hq, hb, hd]
  cases s.seq.phase <;> cases Memory.read? s.buf s.seq.idx.toNat <;> rfl

end Sys2Proof.Machine
end

