-- ==== Sys2Proof/Laws/Step.lean ====
section
/-! SUPPORT. What one step of the machine can do, said once. -/

namespace Sys2Proof.Machine

/-- No reset during the next command is laid out. -/
theorem nextAction_accepts {s : State} {w : Command} {waiting : List Command} (hb : s.busy = false)
    (hc : s.cmds = w :: waiting) (he : ∀ k moves, s.env ≠ .rstDuring k :: moves) :
    nextAction s = acceptCommand w { s with cmds := waiting } := by
  unfold nextAction
  simp only [hb, hc, Bool.false_eq_true, if_false]

/-- An accepted word that spells a command is executed (30_encoding.md R77). -/
theorem step_of_command {s : State} {w : Command} {waiting : List Command} {i : Instr} (hb : s.busy = false)
    (hc : s.cmds = w :: waiting) (he : ∀ k moves, s.env ≠ .rstDuring k :: moves) (hd : decode w = .ok i) :
    step s = exec i { s with cmds := waiting } := by
  simp [step, nextAction_accepts hb hc he, acceptCommand, hd]

/-- An accepted word that spells none is answered with IllegalCommand (R75, R76). -/
theorem step_of_illegal {s : State} {w : Command} {waiting : List Command} {e : DecodeError} (hb : s.busy = false)
    (hc : s.cmds = w :: waiting) (he : ∀ k moves, s.env ≠ .rstDuring k :: moves) (hd : decode w = .error e) :
    step s = .next (raiseIllegal e.op { s with cmds := waiting }) := by
  simp [step, nextAction_accepts hb hc he, acceptCommand, hd]

/-- A busy block leaves the moves to the agents (R85, R168). -/
theorem step_of_busy {s : State} (hb : s.busy = true) : step s = agentsStep s := by
  simp [step, nextAction, hb]

/-- With no command waiting the agents move. -/
theorem step_of_no_command {s : State} (hc : s.cmds = []) : step s = agentsStep s := by
  unfold step nextAction
  by_cases hb : s.busy = true <;> simp [hb, hc]

/-- Everything a move of an outside agent that answers a next state can have been (70_reset_and_hazards.md R242). -/
theorem agentMove_cases {m : EnvMove} {s t : State} (h : agentMove m s = .next t) :
    (∃ w, m = .present w ∧ t = presentCommand w s) ∨
    (m = .take ∧ t = takeResponse s) ∨
    (∃ fail, m = .transport fail ∧ transferStep fail s = .next t) ∨
    (m = .delayOver ∧ delayStep s = .next t) ∨
    (∃ a w, m = .ownerWrite a w ∧ s.busy = false ∧ a.toNat < s.cap.toNat ∧ t = s.memWrite a.toNat w) ∨
    (∃ a, m = .ownerRead a ∧ s.busy = false ∧ a.toNat < s.cap.toNat ∧ t = s) ∨
    ((m = .rst ∨ ∃ k, m = .rstDuring k) ∧ t = s.rst) := by
  cases m with
  | present w => cases h; exact .inl ⟨w, rfl, rfl⟩
  | take => cases h; exact .inr (.inl ⟨rfl, rfl⟩)
  | transport fail => exact .inr (.inr (.inl ⟨fail, rfl, h⟩))
  | delayOver => exact .inr (.inr (.inr (.inl ⟨rfl, h⟩)))
  | ownerWrite a w =>
    obtain ⟨hb, hc, rfl⟩ := ownerAccess_cases (show ownerAccess a s (fun s => s.memWrite a.toNat w) = .next t from h)
    exact .inr (.inr (.inr (.inr (.inl ⟨a, w, rfl, hb, hc, rfl⟩))))
  | ownerRead a =>
    obtain ⟨hb, hc, rfl⟩ := ownerAccess_cases (show ownerAccess a s (fun s => s) = .next t from h)
    exact .inr (.inr (.inr (.inr (.inr (.inl ⟨a, rfl, hb, hc, rfl⟩)))))
  | rst => cases h; exact .inr (.inr (.inr (.inr (.inr (.inr ⟨.inl rfl, rfl⟩)))))
  | rstDuring k => cases h; exact .inr (.inr (.inr (.inr (.inr (.inr ⟨.inr ⟨k, rfl⟩, rfl⟩)))))

/-- The host's taking of a response changes the pending response and the record of the run only. -/
theorem takeResponse_cases (s : State) :
    (s.rsp = none ∧ takeResponse s = s) ∨
    (∃ r, s.rsp = some r ∧ takeResponse s = { s with rsp := none, taken := s.taken ++ [r] }) := by
  unfold takeResponse
  split
  · next r h => exact .inr ⟨r, h, rfl⟩
  · next h => exact .inl ⟨h, rfl⟩

/-- Everything a step that answers a next state can have been: a command executed, an illegal word answered, a command
abandoned by reset, a wait, or one move of an outside agent. -/
theorem step_cases {s t : State} (h : step s = .next t) :
    (∃ w waiting i, s.accepts w waiting ∧ decode w = .ok i ∧
      exec i { s with cmds := waiting } = .next t) ∨
    (∃ w waiting e, s.accepts w waiting ∧ decode w = .error e ∧
      t = raiseIllegal e.op { s with cmds := waiting }) ∨
    (∃ w waiting k moves, s.busy = false ∧ s.cmds = w :: waiting ∧ s.env = .rstDuring k :: moves ∧
      t = abandonCommand w k { s with cmds := waiting, env := moves }) ∨
    ((s.busy = true ∨ s.cmds = []) ∧ s.env = [] ∧ t = s) ∨
    (∃ m moves, (s.busy = true ∨ s.cmds = []) ∧ s.env = m :: moves ∧
      agentMove m { s with env := moves } = .next t) := by
  have agents : (s.busy = true ∨ s.cmds = []) → agentsStep s = .next t →
      ((s.busy = true ∨ s.cmds = []) ∧ s.env = [] ∧ t = s) ∨
      (∃ m moves, (s.busy = true ∨ s.cmds = []) ∧ s.env = m :: moves ∧
        agentMove m { s with env := moves } = .next t) := by
    intro hw ha
    unfold agentsStep at ha
    split at ha
    · next he => cases ha; exact .inl ⟨hw, he, rfl⟩
    · next m moves he => exact .inr ⟨m, moves, hw, he, ha⟩
  by_cases hb : s.busy = true
  · rw [step_of_busy hb] at h
    exact .inr (.inr (.inr (agents (.inl hb) h)))
  · have hb : s.busy = false := by simpa using hb
    rcases hc : s.cmds with _ | ⟨w, waiting⟩
    · rw [step_of_no_command hc] at h
      have := agents (.inr hc) h
      rw [hc] at this
      exact .inr (.inr (.inr this))
    · by_cases he : ∃ k moves, s.env = .rstDuring k :: moves
      · obtain ⟨k, moves, he⟩ := he
        refine .inr (.inr (.inl ⟨w, waiting, k, moves, hb, rfl, he, ?_⟩))
        simp only [step, nextAction, hb, hc, he, Bool.false_eq_true, if_false] at h
        exact ((Host.Outcome.next.injEq _ _).mp h).symm
      · have he' : ∀ k moves, s.env ≠ .rstDuring k :: moves := fun k moves h => he ⟨k, moves, h⟩
        rcases hd : decode w with e | i
        · rw [step_of_illegal hb hc he' hd] at h
          exact .inr (.inl ⟨w, waiting, e, ⟨hb, hc, he'⟩, hd, ((Host.Outcome.next.injEq _ _).mp h).symm⟩)
        · rw [step_of_command hb hc he' hd] at h
          exact .inl ⟨w, waiting, i, ⟨hb, hc, he'⟩, hd, h⟩

/-- A run of `a + b` steps is one of `a` steps and one of `b`. -/
theorem runFor_add {a : Nat} (b : Nat) {s t : State} (h : runFor a s = .next t) : runFor (a + b) s = runFor b t := by
  induction a generalizing s with
  | zero => cases h; rw [Nat.zero_add]
  | succ a ih =>
    rw [Nat.succ_add]
    simp only [runFor] at h ⊢
    split at h
    · exact ih h
    · cases h
    · cases h

/-- A run of one step. -/
theorem runFor_one {s t : State} (h : step s = .next t) : runFor 1 s = .next t := by
  simp [runFor, h]

/-- A move is the presenting of a word exactly when it is `present` of some word. -/
theorem isPresent_iff (m : EnvMove) : m.isPresent = true ↔ ∃ w, m = .present w := by
  cases m <;> simp [EnvMove.isPresent]

end Sys2Proof.Machine
end

