-- ==== Sys2Proof/Laws/Exec.lean ====
section
/-! SUPPORT. The commands with a check before their access, as the shared operation they are: provers cite the cases of
`withIndex`, `withCapacity` and `withBatch` through these. Then everything one command can do, said once. -/

namespace Sys2Proof.Machine

theorem exec_setnum (n : Half) (s : State) :
    exec (.setnum n) s = withCapacity n s fun s => respond 0 (setNumLeds n s) := rfl

theorem exec_init (n : Half) (s : State) :
    exec (.init n) s = withCapacity n s fun s => startFrame 0 (clearWords n.toNat (setNumLeds n s)) := rfl

theorem exec_clear (s : State) :
    exec .clear s = withBatch s fun s => respond 0 (clearWords s.numLeds.toNat s) := rfl

theorem exec_scaleall (f : Half) (s : State) :
    exec (.scaleall f) s = withBatch s fun s => respond 0 (scaleWords s.numLeds.toNat f s) := rfl

theorem exec_setrgb (n : Half) (r g b : Channel) (s : State) :
    exec (.setrgb n r g b) s = withIndex n s fun s => respond 0 (storeRgb n r g b s) := rfl

theorem exec_setw (n : Half) (w : Word) (s : State) :
    exec (.setw n w) s = withIndex n s fun s => respond 0 (storeWord n w s) := rfl

theorem exec_getw (n : Half) (s : State) :
    exec (.getw n) s = withIndex n s fun s =>
      respond ((maskStartBit (s.memRead n.toNat).1).setWidth 24) (s.memRead n.toNat).2 := rfl

theorem exec_scale1 (n f : Half) (s : State) :
    exec (.scale1 n f) s = withIndex n s fun s => respond 0 (scaleOne n f s) := rfl

/-- The capacity check passes (41_buffer.md R121, 44_driver.md R180). -/
theorem withCapacity_access {n : Half} {s : State} (rest : State → State) (h : n.toNat ≤ s.cap.toNat) :
    withCapacity n s rest = .next (rest s) := by
  simp [withCapacity, Nat.not_lt.mpr h]

/-- The capacity check fails (R121, R180, 60_exceptions.md R203). -/
theorem withCapacity_refuses {n : Half} {s : State} (rest : State → State) (h : s.cap.toNat < n.toNat) :
    withCapacity n s rest = .next (raiseError .capacityViolation (n.setWidth 20) s) := by
  simp [withCapacity, h]

/-- A batch whose addresses exist is made (20_memory.md R56). -/
theorem withBatch_access {s : State} (batch : State → State) (h : s.numLeds.toNat ≤ s.cap.toNat) :
    withBatch s batch = .next (batch s) := by
  simp [withBatch, State.allAddressable, h]

/-- The register a CSR number names is the only one with that number (10_state.md R32). -/
theorem csrOfNumber_eq {c : Half} {r : Csr} (h : csrOfNumber c = some r) :
    (c = 0 ∧ r = .numLeds) ∨ (c = 1 ∧ r = .cap) ∨ (c = 2 ∧ r = .mode) ∨ (c = 3 ∧ r = .err) := by
  unfold csrOfNumber at h
  split at h <;> rename_i hc <;> cases h
  · exact .inl ⟨BitVec.eq_of_toNat_eq hc, rfl⟩
  · exact .inr (.inl ⟨BitVec.eq_of_toNat_eq hc, rfl⟩)
  · exact .inr (.inr (.inl ⟨BitVec.eq_of_toNat_eq hc, rfl⟩))
  · exact .inr (.inr (.inr ⟨BitVec.eq_of_toNat_eq hc, rfl⟩))

/-- RDCSR answers, or raises IllegalCommand (45_system.md R186). -/
theorem execRdcsr_cases {c : Half} {s t : State} (h : execRdcsr c s = .next t) :
    (∃ d, t = respond d s) ∨ t = raiseIllegal 0x0D s := by
  unfold execRdcsr at h
  split at h <;> cases h
  · exact .inl ⟨_, rfl⟩
  · exact .inr rfl

/-- WRCSR raises IllegalCommand, writes MODE or clears ERR (45_system.md R187). -/
theorem execWrcsr_cases {c : Half} {v : Data} {s t : State} (h : execWrcsr c v s = .next t) :
    t = raiseIllegal 0x0E s ∨ (c = 2 ∧ t = respond 0 (setMode v s)) ∨
    (c = 3 ∧ v = 0 ∧ t = respond 0 (clearError s)) := by
  unfold execWrcsr at h
  split at h
  · next hc =>
    have hc : c = 2 := by simpa using csrOfNumber_eq hc
    split at h <;> cases h
    · exact .inr (.inl ⟨hc, rfl⟩)
    · exact .inl rfl
  · next hc =>
    have hc : c = 3 := by simpa using csrOfNumber_eq hc
    split at h <;> cases h
    · next hv => exact .inr (.inr ⟨hc, hv, rfl⟩)
    · exact .inl rfl
  · cases h; exact .inl rfl
  · cases h; exact .inl rfl
  · cases h; exact .inl rfl

/-- Everything a command that answers a next state can have done: raise an error; answer and nothing else; or one effect
of its own and the answer or the start of a frame. -/
theorem exec_cases {i : Instr} {s t : State} (h : exec i s = .next t) :
    (∃ e info, t = raiseError e info s) ∨
    (∃ d, t = respond d s) ∨
    (∃ n, i = .init n ∧ n.toNat ≤ s.cap.toNat ∧ t = startFrame 0 (clearWords n.toNat (setNumLeds n s))) ∨
    (∃ n, i = .setnum n ∧ n.toNat ≤ s.cap.toNat ∧ t = respond 0 (setNumLeds n s)) ∨
    (i = .clear ∧ s.numLeds.toNat ≤ s.cap.toNat ∧ t = respond 0 (clearWords s.numLeds.toNat s)) ∨
    (∃ d, i = .showFrame d ∧ t = startFrame d s) ∨
    (∃ (n : Half) (v : Word), ((∃ r g b, i = .setrgb n r g b) ∨ ∃ w, i = .setw n w) ∧ n.toNat < s.numLeds.toNat ∧
      n.toNat < s.cap.toNat ∧ wireValid v = true ∧ t = respond 0 (s.memWrite n.toNat v)) ∨
    (∃ n, i = .getw n ∧ n.toNat < s.numLeds.toNat ∧ n.toNat < s.cap.toNat ∧
      t = respond ((maskStartBit (s.memRead n.toNat).1).setWidth 24) (s.memRead n.toNat).2) ∨
    (∃ n f, i = .scale1 n f ∧ n.toNat < s.numLeds.toNat ∧ n.toNat < s.cap.toNat ∧ t = respond 0 (scaleOne n f s)) ∨
    (∃ f, i = .scaleall f ∧ s.numLeds.toNat ≤ s.cap.toNat ∧ t = respond 0 (scaleWords s.numLeds.toNat f s)) ∨
    (∃ v, i = .wrcsr 2 v ∧ t = respond 0 (setMode v s)) ∨
    (i = .wrcsr 3 0 ∧ t = respond 0 (clearError s)) := by
  cases i with
  | nop => cases h; exact .inr (.inl ⟨_, rfl⟩)
  | init n =>
    rw [exec_init] at h
    rcases withCapacity_cases h with ⟨-, h⟩ | ⟨h1, h⟩
    · exact .inl ⟨_, _, h⟩
    · exact .inr (.inr (.inl ⟨n, rfl, h1, h⟩))
  | setnum n =>
    rw [exec_setnum] at h
    rcases withCapacity_cases h with ⟨-, h⟩ | ⟨h1, h⟩
    · exact .inl ⟨_, _, h⟩
    · exact .inr (.inr (.inr (.inl ⟨n, rfl, h1, h⟩)))
  | clear =>
    rw [exec_clear] at h
    obtain ⟨h1, h⟩ := withBatch_cases h
    exact .inr (.inr (.inr (.inr (.inl ⟨rfl, h1, h⟩))))
  | showFrame d => cases h; exact .inr (.inr (.inr (.inr (.inr (.inl ⟨d, rfl, rfl⟩)))))
  | setrgb n r g b =>
    rw [exec_setrgb] at h
    rcases withIndex_cases h with ⟨-, h⟩ | ⟨h1, h2, h⟩
    · exact .inl ⟨_, _, h⟩
    · exact .inr (.inr (.inr (.inr (.inr (.inr (.inl
        ⟨n, _, .inl ⟨r, g, b, rfl⟩, h1, h2, wireValid_encodePixel r g b s.qrnd, h⟩))))))
  | setw n w =>
    rw [exec_setw] at h
    rcases withIndex_cases h with ⟨-, h⟩ | ⟨h1, h2, h⟩
    · exact .inl ⟨_, _, h⟩
    · exact .inr (.inr (.inr (.inr (.inr (.inr (.inl
        ⟨n, _, .inr ⟨w, rfl⟩, h1, h2, wireValid_withStartBit w, h⟩))))))
  | getw n =>
    rw [exec_getw] at h
    rcases withIndex_cases h with ⟨-, h⟩ | ⟨h1, h2, h⟩
    · exact .inl ⟨_, _, h⟩
    · exact .inr (.inr (.inr (.inr (.inr (.inr (.inr (.inl ⟨n, rfl, h1, h2, h⟩)))))))
  | scale1 n f =>
    rw [exec_scale1] at h
    rcases withIndex_cases h with ⟨-, h⟩ | ⟨h1, h2, h⟩
    · exact .inl ⟨_, _, h⟩
    · exact .inr (.inr (.inr (.inr (.inr (.inr (.inr (.inr (.inl ⟨n, f, rfl, h1, h2, h⟩))))))))
  | scaleall f =>
    rw [exec_scaleall] at h
    obtain ⟨h1, h⟩ := withBatch_cases h
    exact .inr (.inr (.inr (.inr (.inr (.inr (.inr (.inr (.inr (.inl ⟨f, rfl, h1, h⟩)))))))))
  | encodeRgb r g b => cases h; exact .inr (.inl ⟨_, rfl⟩)
  | decodeWord w => cases h; exact .inr (.inl ⟨_, rfl⟩)
  | scalew w f => cases h; exact .inr (.inl ⟨_, rfl⟩)
  | rdcsr c =>
    rcases execRdcsr_cases h with h | h
    · exact .inr (.inl h)
    · exact .inl ⟨_, _, h⟩
  | wrcsr c v =>
    rcases execWrcsr_cases h with h | ⟨rfl, h'⟩ | ⟨rfl, rfl, h'⟩
    · exact .inl ⟨_, _, h⟩
    · exact .inr (.inr (.inr (.inr (.inr (.inr (.inr (.inr (.inr (.inr (.inl ⟨v, rfl, h'⟩))))))))))
    · exact .inr (.inr (.inr (.inr (.inr (.inr (.inr (.inr (.inr (.inr (.inr ⟨rfl, h'⟩))))))))))

/-- A command changes neither C, nor the record of the run, nor the outside agents' lists. -/
theorem exec_state {i : Instr} {s t : State} (h : exec i s = .next t) :
    t = { s with
      buf := t.buf, numLeds := t.numLeds, mode := t.mode, err := t.err, seq := t.seq, rsp := t.rsp, draws := t.draws } := by
  rcases exec_cases h with ⟨e, info, rfl⟩ | ⟨d, rfl⟩ | ⟨n, -, -, rfl⟩ | ⟨n, -, -, rfl⟩ | ⟨-, -, rfl⟩ | ⟨d, -, rfl⟩ |
    ⟨n, v, -, -, -, -, rfl⟩ | ⟨n, -, -, -, rfl⟩ | ⟨n, f, -, -, -, rfl⟩ | ⟨f, -, -, rfl⟩ | ⟨v, -, rfl⟩ | ⟨-, rfl⟩
  · rfl
  · rfl
  · rw [clearWords_state]; rfl
  · rfl
  · rw [clearWords_state]; rfl
  · rfl
  · rfl
  · rw [memRead_state]; rfl
  · rw [scaleOne, updateWord_state]; rfl
  · rw [scaleWords_state]; rfl
  · rfl
  · rfl

/-- What reset finds of an abandoned command differs in BUF and the draw counter only (70_reset_and_hazards.md R231). -/
theorem partlyDone_state (i : Instr) (k : Nat) (s : State) :
    partlyDone i k s = { s with buf := (partlyDone i k s).buf, draws := (partlyDone i k s).draws } := by
  cases i with
  | init n =>
    simp only [partlyDone]; split
    · rfl
    · rw [clearWords_state]
  | clear => simp only [partlyDone]; rw [clearWords_state]
  | scaleall f => simp only [partlyDone]; rw [scaleWords_state]
  | setrgb n r g b => simp only [partlyDone, abandonedAccess]; split <;> rfl
  | setw n w => simp only [partlyDone, abandonedAccess]; split <;> rfl
  | scale1 n f =>
    simp only [partlyDone, abandonedAccess]; split
    · simp only [scaleOne]; rw [updateWord_state]
    · rfl
  | _ => rfl

/-- An abandoned command leaves the reset state, but for BUF and the draw counter (R231). -/
theorem abandonCommand_state (w : Command) (k : Nat) (s : State) :
    abandonCommand w k s =
      { s.rst with buf := (abandonCommand w k s).buf, draws := (abandonCommand w k s).draws } := by
  unfold abandonCommand
  split
  · rw [partlyDone_state]; rfl
  · rfl

end Sys2Proof.Machine
end

