-- ==== Sys2Proof/Laws/PerInstr.lean ====
section
/-! SUPPORT. Per instruction: the encoder's word has the bits that spec/opcode_table.json fixes for the row
(30_encoding.md R74, R82). -/

namespace Sys2Proof.Laws.EncodeFitsRow

open Sys2Proof

/-- The encoded word spells the row of the opcode table that has the command's mnemonic. -/
def Statement (i : Instr) : Prop :=
  ∃ row ∈ opcodeTable, row.mnemonic = i.mnemonic ∧ row.spells (encode i) = true

/-- A word spells a row when its three fields, masked by the row's mask, are the row's pattern. -/
theorem spells_of_fields {m : String} {p mask : Command} {i : Instr} (mop : BitVec 8) (ma : Half) (mb : Data)
    (hm : mask = (mop ++ ma ++ mb : BitVec 48))
    (h : ((i.opcode &&& mop) ++ (i.aOperand &&& ma) ++ (i.bOperand &&& mb) : BitVec 48) = p) :
    OpcodeRow.spells ⟨m, p, mask⟩ (encode i) = true := by
  simp only [OpcodeRow.spells, encode, hm, beq_iff_eq]
  exact (append_and_append _ _ _ _ _ _).trans h

/-- The high bits of the half reading are 0. -/
theorem halfData_high (h : Half) : halfData h &&& 0xFF0000#24 = 0#24 := by
  have hb : (0xFF0000#24 : Data) = (0xFF#8 ++ 0#16 : BitVec 24) := by decide
  rw [hb]
  apply BitVec.eq_of_getLsbD_eq; intro i hi
  simp only [halfData, BitVec.getLsbD_and, BitVec.getLsbD_append]
  split <;> simp

theorem nop : Statement (.nop) :=
  ⟨⟨"NOP", 0x000000000000, 0xFFFFFFFFFFFF⟩, by decide, rfl,
    spells_of_fields 0xFF 0xFFFF 0xFFFFFF (by decide) (by simp [Instr.opcode, Instr.aOperand, Instr.bOperand])⟩

theorem init (a : Half) : Statement (.init a) :=
  ⟨⟨"INIT", 0x010000000000, 0xFF0000FFFFFF⟩, by decide, rfl,
    spells_of_fields 0xFF 0x0000 0xFFFFFF (by decide) (by simp [Instr.opcode, Instr.aOperand, Instr.bOperand])⟩

theorem setnum (a : Half) : Statement (.setnum a) :=
  ⟨⟨"SETNUM", 0x020000000000, 0xFF0000FFFFFF⟩, by decide, rfl,
    spells_of_fields 0xFF 0x0000 0xFFFFFF (by decide) (by simp [Instr.opcode, Instr.aOperand, Instr.bOperand])⟩

theorem clear : Statement (.clear) :=
  ⟨⟨"CLEAR", 0x030000000000, 0xFFFFFFFFFFFF⟩, by decide, rfl,
    spells_of_fields 0xFF 0xFFFF 0xFFFFFF (by decide) (by simp [Instr.opcode, Instr.aOperand, Instr.bOperand])⟩

theorem showFrame (a : Half) : Statement (.showFrame a) :=
  ⟨⟨"SHOW", 0x040000000000, 0xFF0000FFFFFF⟩, by decide, rfl,
    spells_of_fields 0xFF 0x0000 0xFFFFFF (by decide) (by simp [Instr.opcode, Instr.aOperand, Instr.bOperand])⟩

theorem setrgb (a : Half) (r g b : Channel) : Statement (.setrgb a r g b) :=
  ⟨⟨"SETRGB", 0x050000000000, 0xFF0000000000⟩, by decide, rfl,
    spells_of_fields 0xFF 0x0000 0x000000 (by decide) (by simp [Instr.opcode, Instr.aOperand, Instr.bOperand])⟩

theorem setw (a : Half) (w : Word) : Statement (.setw a w) :=
  ⟨⟨"SETW", 0x060000000000, 0xFF0000FF0000⟩, by decide, rfl,
    spells_of_fields 0xFF 0x0000 0xFF0000 (by decide) (by simp [Instr.opcode, Instr.aOperand, Instr.bOperand, halfData_high])⟩

theorem getw (a : Half) : Statement (.getw a) :=
  ⟨⟨"GETW", 0x070000000000, 0xFF0000FFFFFF⟩, by decide, rfl,
    spells_of_fields 0xFF 0x0000 0xFFFFFF (by decide) (by simp [Instr.opcode, Instr.aOperand, Instr.bOperand])⟩

theorem scale1 (a f : Half) : Statement (.scale1 a f) :=
  ⟨⟨"SCALE1", 0x080000000000, 0xFF0000FF0000⟩, by decide, rfl,
    spells_of_fields 0xFF 0x0000 0xFF0000 (by decide) (by simp [Instr.opcode, Instr.aOperand, Instr.bOperand, halfData_high])⟩

theorem scaleall (f : Half) : Statement (.scaleall f) :=
  ⟨⟨"SCALEALL", 0x090000000000, 0xFFFFFFFF0000⟩, by decide, rfl,
    spells_of_fields 0xFF 0xFFFF 0xFF0000 (by decide) (by simp [Instr.opcode, Instr.aOperand, Instr.bOperand, halfData_high])⟩

theorem encodeRgb (r g b : Channel) : Statement (.encodeRgb r g b) :=
  ⟨⟨"ENCODE", 0x0A0000000000, 0xFFFFFF000000⟩, by decide, rfl,
    spells_of_fields 0xFF 0xFFFF 0x000000 (by decide) (by simp [Instr.opcode, Instr.aOperand, Instr.bOperand])⟩

theorem decodeWord (w : Word) : Statement (.decodeWord w) :=
  ⟨⟨"DECODE", 0x0B0000000000, 0xFF0000FFFFFF⟩, by decide, rfl,
    spells_of_fields 0xFF 0x0000 0xFFFFFF (by decide) (by simp [Instr.opcode, Instr.aOperand, Instr.bOperand])⟩

theorem scalew (w : Word) (f : Half) : Statement (.scalew w f) :=
  ⟨⟨"SCALEW", 0x0C0000000000, 0xFF0000FF0000⟩, by decide, rfl,
    spells_of_fields 0xFF 0x0000 0xFF0000 (by decide) (by simp [Instr.opcode, Instr.aOperand, Instr.bOperand, halfData_high])⟩

theorem rdcsr (a : Half) : Statement (.rdcsr a) :=
  ⟨⟨"RDCSR", 0x0D0000000000, 0xFF0000FFFFFF⟩, by decide, rfl,
    spells_of_fields 0xFF 0x0000 0xFFFFFF (by decide) (by simp [Instr.opcode, Instr.aOperand, Instr.bOperand])⟩

theorem wrcsr (a : Half) (v : Data) : Statement (.wrcsr a v) :=
  ⟨⟨"WRCSR", 0x0E0000000000, 0xFF0000000000⟩, by decide, rfl,
    spells_of_fields 0xFF 0x0000 0x000000 (by decide) (by simp [Instr.opcode, Instr.aOperand, Instr.bOperand])⟩

end Sys2Proof.Laws.EncodeFitsRow
end

