-- ==== Sys2Proof/WellFormed.lean ====
section
/-! DEFINITION. Step (4) of the decoding order of 30_encoding.md R77: the checks of a decoded command that read no
state. Every other check of R77 (1) to (3) is made by the decoder, since the operands of `Instr` have exactly the
widths of their fields. A command that is not well formed still decodes (it spells a row of the opcode table, R74)
and its meaning raises IllegalCommand, as R186 and R187 say. -/

namespace Sys2Proof

/-- R186: RDCSR of a CSR number above 3 raises IllegalCommand. -/
def readableCsr (csr : Half) : Bool := csr.toNat ≤ 3

/-- R187: WRCSR takes a 2-bit value for CSR 2 and the value 0 for CSR 3, and nothing else. -/
def writableCsr (csr : Half) (value : Data) : Bool :=
  (csr.toNat = 2 && value.toNat < 4) || (csr.toNat = 3 && value.toNat = 0)

/-- R77 (4): the CSR number and value of RDCSR and WRCSR; no other command has a check here. -/
def Instr.wellFormed : Instr → Bool
  | .nop => true
  | .init _ => true
  | .setnum _ => true
  | .clear => true
  | .showFrame _ => true
  | .setrgb _ _ _ _ => true
  | .setw _ _ => true
  | .getw _ => true
  | .scale1 _ _ => true
  | .scaleall _ => true
  | .encodeRgb _ _ _ => true
  | .decodeWord _ => true
  | .scalew _ _ => true
  | .rdcsr csr => readableCsr csr
  | .wrcsr csr value => writableCsr csr value

end Sys2Proof
end

