-- ==== Sys2Proof/Tests/Slice0.lean ====
section
/-! SUPPORT. Tests with expected values taken from the spec (30_encoding.md R87, 95_test_vectors.md and the examples of the
command rules), and one witness for the hypotheses of every statement of the certificate that has any. -/

namespace Sys2Proof.Tests

open Sys2Proof Sys2Proof.Machine

/-- The state of R87: C = 4, NUMLEDS = 2, MODE = 0, ERR = 0, BUF = [0xBFE0, 0x8421, ?, ?]. -/
def worked : State := { State.resetWith 4 with numLeds := 2, buf := [(0, 0xBFE0), (1, 0x8421)] }

/-- A part of the next state of an outcome; none for a fault or a refusal. -/
def after {α : Type} (r : Result) (f : State → α) : Option α :=
  match r with
  | .next t => some (f t)
  | .fault _ => none
  | .refused _ => none

theorem next_of {r : Result} {t : State} (h : after r id = some t) : r = .next t := by
  cases r <;> simp_all [after]

/-- The step that accepts the word `w` in the state of R87. -/
def run (w : Nat) : Result := step (worked.withFetchWord 48 w)

/-- The state of R87 with the word `w` waiting at the command port and these moves laid out. -/
def offered (w : Command) (moves : List EnvMove) : State := { worked with cmds := [w], env := moves }

/-- The state of R87 inside a frame. -/
def framed (p : Phase) (idx dly : BitVec 16) (cnt : BitVec 20) (moves : List EnvMove) : State :=
  { worked with seq := { phase := p, idx := idx, dly := dly, cnt := cnt }, env := moves }

/-! ## WellFormed: one ill-formed term for each check -/

theorem test_rdcsr_above_3_is_ill_formed : (Instr.rdcsr 4).wellFormed = false := by decide
theorem test_wrcsr_numleds_is_ill_formed : (Instr.wrcsr 0 1).wellFormed = false := by decide
theorem test_wrcsr_cap_is_ill_formed : (Instr.wrcsr 1 0).wellFormed = false := by decide
theorem test_wrcsr_mode_4_is_ill_formed : (Instr.wrcsr 2 4).wellFormed = false := by decide
theorem test_wrcsr_err_1_is_ill_formed : (Instr.wrcsr 3 1).wellFormed = false := by decide
theorem test_wrcsr_above_3_is_ill_formed : (Instr.wrcsr 4 0).wellFormed = false := by decide
theorem test_wrcsr_mode_3_is_well_formed : (Instr.wrcsr 2 3).wellFormed = true := by decide

/-! ## Decode: a word of every constructor, from R87 and the examples of the command rules -/

theorem test_decode_nop : decode 0x000000000000 = .ok .nop := by decide
theorem test_decode_init : decode 0x010003000000 = .ok (.init 3) := by decide
theorem test_decode_setnum : decode 0x020004000000 = .ok (.setnum 4) := by decide
theorem test_decode_clear : decode 0x030000000000 = .ok .clear := by decide
theorem test_decode_show : decode 0x040005000000 = .ok (.showFrame 5) := by decide
theorem test_decode_setrgb : decode 0x050001FF8000 = .ok (.setrgb 1 255 128 0) := by decide
theorem test_decode_setw : decode 0x060001000421 = .ok (.setw 1 0x0421) := by decide
theorem test_decode_getw : decode 0x070002000000 = .ok (.getw 2) := by decide
theorem test_decode_scale1 : decode 0x080000000080 = .ok (.scale1 0 0x0080) := by decide
theorem test_decode_scaleall : decode 0x090000000080 = .ok (.scaleall 0x0080) := by decide
theorem test_decode_encode : decode 0x0A0000804020 = .ok (.encodeRgb 128 64 32) := by decide
theorem test_decode_decode : decode 0x0B8421000000 = .ok (.decodeWord 0x8421) := by decide
theorem test_decode_scalew : decode 0x0CC20F000180 = .ok (.scalew 0xC20F 0x0180) := by decide
theorem test_decode_rdcsr : decode 0x0D0001000000 = .ok (.rdcsr 1) := by decide
theorem test_decode_wrcsr : decode 0x0E0002000001 = .ok (.wrcsr 2 1) := by decide
theorem test_decode_reserved_opcode : decode 0x0F0000000000 = .error (.reservedOpcode 0x0F) := by decide
theorem test_decode_reserved_field : decode 0x060000018421 = .error (.reservedField 0x06) := by decide
theorem test_decode_setw_bit_15 : decode 0x060000008421 = .ok (.setw 0 0x8421) := by decide
theorem test_decode_nop_with_bit : decode 0x000000000001 = .error (.reservedField 0x00) := by decide

/-! ## Encode and the assembler's words (R82, R83) -/

theorem test_encode_setrgb : encode (.setrgb 1 255 128 0) = 0x050001FF8000 := by decide
theorem test_encode_scalew : encode (.scalew 0xC20F 0x0180) = 0x0CC20F000180 := by decide
theorem test_line : (Instr.setrgb 1 255 128 0).line = "SETRGB 1, 255, 128, 0" := by decide
theorem test_pseudo_construct : encode (PseudoCommand.construct 3).expansion = 0x010003000000 := by decide
theorem test_pseudo_setmode : encode (PseudoCommand.setMode 3).expansion = 0x0E0002000003 := by decide
theorem test_pseudo_clrerr : encode PseudoCommand.clrErr.expansion = 0x0E0003000000 := by decide
theorem test_pseudo_geterr : encode PseudoCommand.getErr.expansion = 0x0D0003000000 := by decide
theorem test_pseudo_off : encode (PseudoCommand.off 2).expansion = 0x060002000000 := by decide
theorem test_pseudo_brightness : encode (PseudoCommand.setBrightness 1 0x80).expansion = 0x080001000080 := by decide
theorem test_pseudo_brightness_all : encode (PseudoCommand.setBrightnessAll 0x80).expansion = 0x090000000080 := by
  decide

/-! ## One step of every command from the state of R87 -/

theorem test_nop : run 0x000000000000 = .next { worked with rsp := some 0x00000000 } :=
  next_of (by decide)
theorem test_init_starts : run 0x010003000000 = .next { worked with
    numLeds := 3, buf := [(0, 0x8000), (1, 0x8000), (2, 0x8000)],
    seq := { phase := .rst0, idx := 0, dly := 0, cnt := 0 } } :=
  next_of (by decide)
theorem test_init_above_capacity : after (run 0x010005000000) (fun t => (t.rsp, t.err, t.numLeds, t.seq.phase)) =
    some (some 0x20000005, 0x000052, 2, .idle) := by decide
theorem test_setnum_capacity : run 0x020004000000 = .next { worked with numLeds := 4, rsp := some 0x00000000 } :=
  next_of (by decide)
theorem test_setnum_above_capacity : after (run 0x020005000000) (fun t => (t.rsp, t.err, t.numLeds)) =
    some (some 0x20000005, 0x000052, 2) := by decide
theorem test_clear : run 0x030000000000 = .next { worked with
    buf := [(0, 0x8000), (1, 0x8000)], rsp := some 0x00000000 } :=
  next_of (by decide)
theorem test_show_starts : run 0x040005000000 = .next { worked with
    seq := { phase := .rst0, idx := 0, dly := 5, cnt := 0 } } :=
  next_of (by decide)
theorem test_setrgb : run 0x050001FF8000 = .next { worked with
    buf := [(0, 0xBFE0), (1, 0xBFE0)], rsp := some 0x00000000 } :=
  next_of (by decide)
theorem test_setrgb_nearest : after (exec (.setrgb 0 8 8 8) { worked with mode := 1 }) (fun t => Memory.read? t.buf 0) =
    some (some 0x8421) := by decide
theorem test_setw : run 0x060000000421 = .next { worked with
    buf := [(0, 0x8421), (1, 0x8421)], rsp := some 0x00000000 } :=
  next_of (by decide)
theorem test_setw_out_of_range : after (run 0x060002000421) (fun t => (t.rsp, t.err, t.buf)) =
    some (some 0x10000002, 0x000021, worked.buf) := by decide
theorem test_getw : run 0x070000000000 = .next { worked with rsp := some 0x00003FE0 } :=
  next_of (by decide)
theorem test_getw_out_of_range : after (run 0x070002000000) (fun t => (t.rsp, t.err)) =
    some (some 0x10000002, 0x000021) := by decide
theorem test_scale1 : run 0x080000000080 = .next { worked with
    buf := [(0, 0x9DE0), (1, 0x8421)], rsp := some 0x00000000 } :=
  next_of (by decide)
theorem test_scaleall : run 0x090000000080 = .next { worked with
    buf := [(0, 0x9DE0), (1, 0x8000)], rsp := some 0x00000000 } :=
  next_of (by decide)
theorem test_scaleall_rounding : after (exec (.scaleall 0x0080) { worked with mode := 2 }) (fun t => t.buf) =
    some [(0, 0xA200), (1, 0x8421)] := by decide
theorem test_encode : run 0x0A0000804020 = .next { worked with rsp := some 0x00009DE3 } :=
  next_of (by decide)
theorem test_encode_nearest : after (exec (.encodeRgb 128 64 32) { worked with mode := 1 }) (fun t => t.rsp) =
    some (some 0x0000A204) := by decide
theorem test_decode : run 0x0B8421000000 = .next { worked with rsp := some 0x00090909 } :=
  next_of (by decide)
theorem test_decode_ignores_bit_15 : after (run 0x0B0421000000) (fun t => t.rsp) = some (some 0x00090909) := by decide
theorem test_scalew : run 0x0CC20F000180 = .next { worked with rsp := some 0x0000E316 } :=
  next_of (by decide)
theorem test_scalew_rounding : after (exec (.scalew 0xC20F 0x0180) { worked with mode := 2 }) (fun t => t.rsp) =
    some (some 0x0000E317) := by decide
theorem test_rdcsr_cap : run 0x0D0001000000 = .next { worked with rsp := some 0x00000004 } :=
  next_of (by decide)
theorem test_rdcsr_4 : after (run 0x0D0004000000) (fun t => (t.rsp, t.err)) = some (some 0x4000000D, 0x0000D4) := by
  decide
theorem test_wrcsr_mode : run 0x0E0002000001 = .next { worked with mode := 1, rsp := some 0x00000000 } :=
  next_of (by decide)
theorem test_wrcsr_mode_4 : after (run 0x0E0002000004) (fun t => (t.rsp, t.mode)) = some (some 0x4000000E, 0) := by
  decide
theorem test_reserved_opcode : after (run 0x0F0000000000) (fun t => (t.rsp, t.err)) =
    some (some 0x4000000F, 0x0000F4) := by decide
theorem test_first_error_wins : after (exec (.getw 9) { worked with err := 0x000052 }) (fun t => (t.rsp, t.err)) =
    some (some 0x10000009, 0x000052) := by decide

/-! ## One step of the sequencer (R163) and of the outside agents -/

theorem test_pixel_with_delay : after (step (framed .pix 1 5 3 [.transport false])) (fun t => (t.wire, t.seq)) =
    some ([.word 0x8421], { phase := .wait, idx := 1, dly := 5, cnt := 4 }) := by decide
theorem test_delay_ends_the_frame : after (step (framed .wait 1 5 4 [.delayOver])) (fun t => (t.wire, t.seq.phase, t.rsp)) =
    some ([.delay 5], .idle, some 0) := by decide
theorem test_failed_pixel : after (step (framed .pix 1 0 3 [.transport true])) (fun t => (t.wire, t.rsp, t.err)) =
    some ([.fail 0x8421], some 0x30000003, 0x000033) := by decide
theorem test_empty_strip_finishes : after (step { framed .rst1 0 0 1 [.transport false] with numLeds := 0 })
    (fun t => (t.wire, t.seq.phase, t.rsp)) = some ([.word 0], .idle, some 0) := by decide
theorem test_owner_write_bit_15_clear : after (step { worked with env := [.ownerWrite 3 0x0421] }) (fun t => t.buf) =
    some [(0, 0xBFE0), (1, 0x8421), (3, 0x0421)] := by decide
theorem test_owner_refused_while_busy : step (framed .pix 0 0 2 [.ownerRead 0]) = .refused .ownerWhileBusy :=
  rfl
theorem test_owner_beyond_capacity : step { worked with env := [.ownerRead 4] } = .fault (.bufferAddress 4) :=
  rfl
theorem test_rst_in_a_frame : step (framed .pix 0 0 2 [.rst]) =
    .next { State.resetWith 4 with buf := worked.buf } := next_of (by decide)

/-! ## Witnesses: states and operands that meet the hypotheses of each statement -/

theorem offered_accepts (w : Command) (moves : List EnvMove) (h : ∀ k m, moves ≠ .rstDuring k :: m) :
    (offered w moves).accepts w [] := ⟨rfl, rfl, h⟩

/-- The moves laid out in a framed state are those named. -/
theorem framed_env (p : Phase) (idx dly : BitVec 16) (cnt : BitVec 20) (moves : List EnvMove) :
    (framed p idx dly cnt moves).env = moves := rfl

theorem witness_EncodeReproducesEveryDecodedWord : decode 0x0E0002000001 = .ok (.wrcsr 2 1) := by decide

theorem witness_DecoderAgreesWithTheOpcodeTable :
    (⟨"SETW", 0x060000000000, 0xFF0000FF0000⟩ : OpcodeRow) ∈ opcodeTable ∧
    OpcodeRow.spells ⟨"SETW", 0x060000000000, 0xFF0000FF0000⟩ 0x060001000421 = true ∧
    (∀ row ∈ opcodeTable, row.spells 0x060000018421 = false) := by decide

theorem witness_StepRunsTheDecodedCommand :
    (offered 0x070000000000 []).accepts 0x070000000000 [] ∧ decode 0x070000000000 = .ok (.getw 0) :=
  ⟨offered_accepts _ _ (by intro k m h; cases h), by decide⟩

theorem witness_ReservedOpcodeIsIllegal :
    ((offered 0x0F0000000000 []).accepts 0x0F0000000000 [] ∧ 0x0F ≤ (0x0F0000000000 : Command).toNat / 2 ^ 40) ∧
    ((offered 0xFFFFFFFFFFFF []).accepts 0xFFFFFFFFFFFF [] ∧ 0x0F ≤ (0xFFFFFFFFFFFF : Command).toNat / 2 ^ 40) :=
  ⟨⟨offered_accepts _ _ (by intro k m h; cases h), by decide⟩,
   ⟨offered_accepts _ _ (by intro k m h; cases h), by decide⟩⟩

theorem witness_ReservedFieldIsIllegal_A :
    (offered 0x000001000000 []).accepts 0x000001000000 [] ∧
    (0x000001000000 : Command).toNat / 2 ^ 40 ∈ [0x00, 0x03, 0x09, 0x0A] ∧
    (0x000001000000 : Command).toNat / 2 ^ 24 % 2 ^ 16 ≠ 0 :=
  ⟨offered_accepts _ _ (by intro k m h; cases h), by decide, by decide⟩

theorem witness_ReservedFieldIsIllegal_B :
    (offered 0x0D0000000001 []).accepts 0x0D0000000001 [] ∧
    (0x0D0000000001 : Command).toNat / 2 ^ 40 ∈ [0x00, 0x01, 0x02, 0x03, 0x04, 0x07, 0x0B, 0x0D] ∧
    (0x0D0000000001 : Command).toNat % 2 ^ 24 ≠ 0 :=
  ⟨offered_accepts _ _ (by intro k m h; cases h), by decide, by decide⟩

theorem witness_ReservedFieldIsIllegal_high :
    (offered 0x060000010000 []).accepts 0x060000010000 [] ∧
    (0x060000010000 : Command).toNat / 2 ^ 40 ∈ [0x06, 0x08, 0x09, 0x0C] ∧
    (0x060000010000 : Command).toNat / 2 ^ 16 % 2 ^ 8 ≠ 0 :=
  ⟨offered_accepts _ _ (by intro k m h; cases h), by decide, by decide⟩

/-- A busy block: without a `present` move, and with one behind a waiting word; an idle block with one. -/
theorem witness_BusyBlockAcceptsNoCommand :
    ((framed .rst0 0 0 0 []).busy = true ∧ step (framed .rst0 0 0 0 []) = .next (framed .rst0 0 0 0 [])) ∧
    (({ framed .rst0 0 0 0 [.present 7] with cmds := [9] } : State).busy = true ∧
      step { framed .rst0 0 0 0 [.present 7] with cmds := [9] } =
        .next { framed .rst0 0 0 0 [] with cmds := [9, 7] }) ∧
    (worked.cmds = [] ∧ worked.busy = false ∧
      step { worked with env := [.present 7] } = .next { worked with cmds := [7] }) :=
  ⟨⟨by decide, next_of (by decide)⟩, ⟨by decide, next_of (by decide)⟩, by decide, by decide, next_of (by decide)⟩

theorem witness_AcceptedCommandMakesTheBlockBusy :
    (offered 0x040000000000 []).accepts 0x040000000000 [] ∧
    step (offered 0x040000000000 []) = .next (framed .rst0 0 0 0 []) :=
  ⟨offered_accepts _ _ (by intro k m h; cases h), next_of (by decide)⟩

theorem witness_ResponseIsHandedOverOnce :
    ({ worked with rsp := some 0x10000002, env := [.take] } : State).rsp = some 0x10000002 ∧
    ({ worked with rsp := some 0x10000002, env := [.take] } : State).env = .take :: [] := by decide

theorem witness_FailingCommandHasNoOtherEffect :
    worked.rsp = none ∧ exec (.getw 2) worked = .next { worked with err := 0x000021, rsp := some 0x10000002 } ∧
    rspStatus 0x10000002 ≠ 0 := ⟨by decide, next_of (by decide), by decide⟩

theorem witness_ErrorRecordIsClearedOnlyByWrcsrOrReset_wrcsr :
    errCause 0x000052 ≠ 0 ∧
    step { offered 0x0E0003000000 [] with err := 0x000052 } = .next { worked with rsp := some 0 } ∧
    worked.err ≠ 0x000052 := ⟨by decide, next_of (by decide), by decide⟩

theorem witness_ErrorRecordIsClearedOnlyByWrcsrOrReset_reset :
    step { worked with err := 0x000052, env := [.rst] } = .next { worked with numLeds := 0 } ∧
    step { offered 0x000000000000 [.rstDuring 0] with err := 0x000052 } = .next { worked with numLeds := 0 } :=
  ⟨next_of (by decide), next_of (by decide)⟩

theorem witness_EveryCommandAnswersANextState :
    ({ worked with numLeds := 4 } : State).numLeds.toNat ≤ worked.cap.toNat := by decide

theorem witness_QuantizerIsLinearAndMonotone : (8 : Channel).toNat ≤ (9 : Channel).toNat := by decide

theorem witness_IndexAtOrAboveNumledsFails :
    worked.numLeds.toNat ≤ (2 : Half).toNat ∧ worked.numLeds.toNat ≤ (65535 : Half).toNat := by decide

theorem witness_CountAboveCapacityFails : worked.cap.toNat < (5 : Half).toNat ∧ (4 : Half) = worked.cap := by decide

theorem witness_SetnumWritesNumledsOnly :
    (4 : Half).toNat ≤ worked.cap.toNat ∧ (0 : Half).toNat ≤ worked.cap.toNat ∧ worked.cap.toNat < (5 : Half).toNat := by
  decide

/-- A written and a never-written word in range, and one out of it. -/
theorem witness_ClearWritesTheOffPixelBelowNumleds :
    ({ worked with numLeds := 3 } : State).numLeds.toNat ≤ worked.cap.toNat ∧ 2 < 3 ∧
    Memory.read? worked.buf 1 = some 0x8421 ∧ Memory.read? worked.buf 2 = none ∧ 3 ≤ 3 := by decide

/-- A written and a never-written word in range, and one out of it. -/
theorem witness_ScaleAllRewritesTheWordsBelowNumleds :
    ({ worked with numLeds := 3 } : State).numLeds.toNat ≤ worked.cap.toNat ∧ 2 < 3 ∧
    Memory.read? worked.buf 1 = some 0x8421 ∧ Memory.read? worked.buf 2 = none ∧ 3 ≤ 3 := by decide

theorem witness_ScaleAllEqualsScaleOneOfEveryIndex :
    ({ worked with numLeds := 4 } : State).numLeds.toNat ≤ worked.cap.toNat := by decide

/-- The highest index of the largest strip. -/
theorem witness_SetrgbStoresTheEncodedWord :
    (3 : Half).toNat < ({ worked with numLeds := 4 } : State).numLeds.toNat ∧
    ({ worked with numLeds := 4 } : State).numLeds.toNat ≤ worked.cap.toNat := by decide

theorem witness_SetwStoresTheWordWithItsStartBit :
    (0 : Half).toNat < worked.numLeds.toNat ∧ worked.numLeds.toNat ≤ worked.cap.toNat := by decide

theorem witness_GetwReadsBackWhatWasStored :
    (1 : Half).toNat < worked.numLeds.toNat ∧ worked.numLeds.toNat ≤ worked.cap.toNat := by decide

theorem witness_ScaleOneRewritesTheWord :
    (0 : Half).toNat < worked.numLeds.toNat ∧ worked.numLeds.toNat ≤ worked.cap.toNat ∧
    Memory.read? worked.buf (0 : Half).toNat = some 0xBFE0 := by decide

/-- With a written word. -/
theorem witness_GetwAnswersTheWordWithoutItsStartBit :
    (1 : Half).toNat < worked.numLeds.toNat ∧ worked.numLeds.toNat ≤ worked.cap.toNat ∧
    Memory.read? worked.buf (1 : Half).toNat = some 0x8421 := by decide

theorem witness_ScalerLawsHold :
    (1 : Lane).toNat ≤ (2 : Lane).toNat ∧ (0x00FF : Half).toNat ≤ (0x0100 : Half).toNat ∧
    7936 ≤ (1 : Lane).toNat * (0x1F00 : Half).toNat ∧ 7808 ≤ (1 : Lane).toNat * (0x1E80 : Half).toNat := by decide

theorem witness_SequencerSendsAndAdvances_header :
    (framed .rst0 0 0 0 [.transport false]).env = .transport false :: [] ∧
    (framed .rst0 0 0 0 [.transport false]).seq.phase = .rst0 ∧
    (framed .rst1 0 0 1 [.transport false]).seq.phase = .rst1 ∧
    (framed .rst1 0 0 1 [.transport false]).numLeds ≠ 0 ∧
    ({ framed .rst1 0 0 1 [.transport false] with numLeds := 0 } : State).numLeds = 0 := by decide

theorem witness_SequencerSendsAndAdvances_pixel :
    (framed .pix 1 5 3 [.transport false]).seq.phase = .pix ∧ (1 : BitVec 16).toNat < worked.cap.toNat ∧
    (framed .pix 1 5 3 [.transport false]).seq.dly ≠ 0 ∧ (framed .pix 1 0 3 [.transport false]).seq.dly = 0 ∧
    (1 : BitVec 16).toNat + 1 = worked.numLeds.toNat ∧ (0 : BitVec 16).toNat + 1 ≠ worked.numLeds.toNat := by decide

theorem witness_SequencerDelaysAndAdvances :
    (framed .wait 1 5 4 [.delayOver]).env = .delayOver :: [] ∧ (framed .wait 1 5 4 [.delayOver]).seq.phase = .wait ∧
    (1 : BitVec 16).toNat + 1 = worked.numLeds.toNat ∧ (0 : BitVec 16).toNat + 1 ≠ worked.numLeds.toNat := by decide

theorem witness_FailedTransferAbortsTheFrame :
    (framed .rst0 0 0 0 [.transport true]).env = .transport true :: [] ∧
    (framed .rst0 0 0 0 [.transport true]).seq.phase = .rst0 ∧
    (framed .rst1 0 0 1 [.transport true]).seq.phase = .rst1 ∧
    (framed .pix 1 0 3 [.transport true]).seq.phase = .pix ∧ (1 : BitVec 16).toNat < worked.cap.toNat := by decide

/-- With a delay, without one, and with an empty strip. -/
theorem witness_ShowSendsTheWholeFrame :
    (offered (encode (.showFrame 5)) (frameAnswers 5 2)).accepts (encode (.showFrame 5)) [] ∧
    worked.numLeds.toNat ≤ worked.cap.toNat ∧
    (offered (encode (.showFrame 5)) (frameAnswers 5 2)).env = frameAnswers 5 worked.numLeds.toNat ++ [] ∧
    frameTrace 5 [0xBFE0, 0x8421] = [.word 0, .word 0, .word 0xBFE0, .delay 5, .word 0x8421, .delay 5] ∧
    (offered (encode (.showFrame 0)) (frameAnswers 0 2)).accepts (encode (.showFrame 0)) [] ∧
    (offered (encode (.showFrame 0)) (frameAnswers 0 2)).env = frameAnswers 0 worked.numLeds.toNat ++ [] ∧
    ({ offered (encode (.showFrame 5)) (frameAnswers 5 0) with numLeds := 0 } : State).accepts
      (encode (.showFrame 5)) [] ∧
    ({ offered (encode (.showFrame 5)) (frameAnswers 5 0) with numLeds := 0 } : State).env =
      frameAnswers 5 (0 : Half).toNat ++ [] :=
  ⟨offered_accepts _ _ (by intro k m h; cases h), by decide, by decide, by decide,
   offered_accepts _ _ (by intro k m h; cases h), by decide, ⟨rfl, rfl, by intro k m h; cases h⟩, by decide⟩

/-- The frame of 43_serializer.md R164's example, with and without delay. -/
theorem test_frame_of_the_example :
    frameTrace 0 [0x8000, 0x8421, 0x8C63] = [.word 0, .word 0, .word 0x8000, .word 0x8421, .word 0x8C63] ∧
    frameTrace 5 [0x8000, 0x8421, 0x8C63] =
      [.word 0, .word 0, .word 0x8000, .delay 5, .word 0x8421, .delay 5, .word 0x8C63, .delay 5] := by decide

theorem witness_ShowStopsAtTheFirstFailedTransfer_header :
    (offered (encode (.showFrame 0)) [.transport true]).accepts (encode (.showFrame 0)) [] ∧
    (offered (encode (.showFrame 0)) [.transport true]).env = [.transport true] ++ [] ∧
    (offered (encode (.showFrame 0)) [.transport false, .transport true]).accepts (encode (.showFrame 0)) [] ∧
    (offered (encode (.showFrame 0)) [.transport false, .transport true]).env =
      [.transport false, .transport true] ++ [] :=
  ⟨offered_accepts _ _ (by intro k m h; cases h), rfl, offered_accepts _ _ (by intro k m h; cases h), rfl⟩

/-- At the last pixel, with a delay before it, and at pixel 0. -/
theorem witness_ShowStopsAtTheFirstFailedTransfer_pixel :
    (offered (encode (.showFrame 5)) (frameAnswers 5 1 ++ [.transport true])).accepts (encode (.showFrame 5)) [] ∧
    1 < worked.numLeds.toNat ∧
    (offered (encode (.showFrame 5)) (frameAnswers 5 1 ++ [.transport true])).env =
      frameAnswers 5 1 ++ [.transport true] ++ [] ∧
    (offered (encode (.showFrame 5)) (frameAnswers 5 0 ++ [.transport true])).accepts (encode (.showFrame 5)) [] ∧
    0 < worked.numLeds.toNat ∧
    (offered (encode (.showFrame 5)) (frameAnswers 5 0 ++ [.transport true])).env =
      frameAnswers 5 0 ++ [.transport true] ++ [] :=
  ⟨offered_accepts _ _ (by intro k m h; cases h), by decide, by decide,
   offered_accepts _ _ (by intro k m h; cases h), by decide, by decide⟩

theorem witness_UnansweredFrameWaits :
    (framed .wait 0 5 3 []).seq.phase ≠ .idle ∧ (framed .wait 0 5 3 []).env = [] := by decide

theorem witness_WireGrowsOnlyDuringAFrame :
    after (step (framed .rst0 0 0 0 [.transport false])) (fun t => t.wire) = some [.word 0] := by decide

theorem witness_InitClearsAndStartsTheFrame :
    (4 : Half).toNat ≤ worked.cap.toNat ∧ (0 : Half).toNat ≤ worked.cap.toNat ∧ 3 < (4 : Half).toNat := by decide

theorem witness_InitSendsTheAllOffFrame :
    (offered (encode (.init 4)) (frameAnswers 0 4)).accepts (encode (.init 4)) [] ∧
    (4 : Half).toNat ≤ worked.cap.toNat ∧
    (offered (encode (.init 4)) (frameAnswers 0 4)).env = frameAnswers 0 (4 : Half).toNat ++ [] :=
  ⟨offered_accepts _ _ (by intro k m h; cases h), by decide, by decide⟩

theorem witness_InitEqualsSetnumClearShow :
    (4 : Half).toNat ≤ worked.cap.toNat ∧ worked.cap.toNat < (5 : Half).toNat := by decide

theorem witness_RdcsrAnswersTheRegister :
    (0 : Half).toNat = 0 ∧ (1 : Half).toNat = 1 ∧ (2 : Half).toNat = 2 ∧ (3 : Half).toNat = 3 ∧ 3 < (4 : Half).toNat := by
  decide

theorem witness_WrcsrWritesModeOrClearsErr :
    ((2 : Half).toNat = 2 ∧ (3 : Data).toNat < 4) ∧ ((3 : Half).toNat = 3 ∧ (0 : Data).toNat = 0) ∧
    ((2 : Half).toNat = 2 ∧ 4 ≤ (4 : Data).toNat) ∧ ((3 : Half).toNat = 3 ∧ (1 : Data).toNat ≠ 0) ∧
    (1 : Half).toNat < 2 ∧ 3 < (4 : Half).toNat := by decide

theorem witness_PureCommandsReadOnlyTheirModeBit :
    ((1 : BitVec 2).toNat % 2 = (3 : BitVec 2).toNat % 2 ∧
      exec (.encodeRgb 128 64 32) { worked with mode := 1 } = .next { worked with mode := 1, rsp := some 0x0000A204 } ∧
      exec (.encodeRgb 128 64 32) { worked with mode := 3 } = .next { worked with mode := 3, rsp := some 0x0000A204 }) ∧
    ((2 : BitVec 2).toNat / 2 = (3 : BitVec 2).toNat / 2 ∧
      exec (.scalew 0xC20F 0x0180) { worked with mode := 2 } = .next { worked with mode := 2, rsp := some 0x0000E317 } ∧
      exec (.scalew 0xC20F 0x0180) { worked with mode := 3 } = .next { worked with mode := 3, rsp := some 0x0000E317 }) ∧
    exec (.decodeWord 0x8421) worked = .next { worked with rsp := some 0x00090909 } ∧
    exec .nop worked = .next { worked with rsp := some 0 } :=
  ⟨⟨by decide, next_of (by decide), next_of (by decide)⟩, ⟨by decide, next_of (by decide), next_of (by decide)⟩,
   next_of (by decide), next_of (by decide)⟩

/-- By exec, by the step that accepts SETNUM 4, and by both resets. -/
theorem witness_NumledsIsWrittenOnlyBySetnumAndInit :
    exec (.setnum 4) worked = .next { worked with numLeds := 4, rsp := some 0 } ∧
    step (offered (encode (.setnum 4)) []) = .next { worked with numLeds := 4, rsp := some 0 } ∧
    step { worked with env := [.rst] } = .next { worked with numLeds := 0 } ∧
    step (offered (encode .nop) [.rstDuring 0]) = .next { worked with numLeds := 0 } ∧
    (4 : Half) ≠ worked.numLeds ∧ (0 : Half) ≠ worked.numLeds :=
  ⟨next_of (by decide), next_of (by decide), next_of (by decide), next_of (by decide), by decide, by decide⟩

theorem witness_CapacityNeverChanges : step { worked with env := [.rst] } = .next { worked with numLeds := 0 } :=
  next_of (by decide)

theorem witness_CommandsWriteWireValidWords :
    after (exec (.setw 0 0x0421) worked) (fun t => Memory.read? t.buf 0) = some (some 0x8421) ∧
    Memory.read? worked.buf 0 ≠ some 0x8421 := by decide

theorem witness_WordsAboveNumledsKeepTheirContent :
    after (exec .clear { worked with numLeds := 1 }) (fun t => Memory.read? t.buf 1) = some (some 0x8421) ∧
    after (exec (.init 1) worked) (fun t => Memory.read? t.buf 1) = some (some 0x8421) := by decide

theorem witness_OwnerWritesOnlyWhileIdle :
    (({ worked with env := [.ownerWrite 3 0x0421] } : State).busy = false ∧ worked.cmds = [] ∧
      (3 : Half).toNat < worked.cap.toNat) ∧
    (framed .pix 0 0 2 [.ownerWrite 3 0x0421]).busy = true := by decide

/-- The state of R87 has the invariant, idle or in PIX at its second pixel, whatever moves are laid out. -/
theorem worked_inv (q : Seq) (moves : List EnvMove) (h : seqLegal 2 q) : ({ worked with seq := q, env := moves } : State).Inv :=
  ⟨show bufLegal 4 worked.buf by decide, show 1 ≤ worked.cap.toNat by decide,
   show worked.numLeds.toNat ≤ worked.cap.toNat by decide, show errLegal worked.err by decide,
   fun r h => (nomatch (h : r ∈ (none : Option Response))), fun r h => (nomatch (h : r ∈ ([] : List Response))), h,
   fun _ => rfl⟩

theorem witness_InvariantIsKeptByEveryStep :
    (framed .pix 1 5 3 [.transport false]).Inv ∧
    (after (step (framed .pix 1 5 3 [.transport false])) (fun t => t.seq)).isSome :=
  ⟨worked_inv _ _ ⟨by decide, by decide⟩, by decide⟩

theorem witness_InvariantHoldsAtReset : 1 ≤ (1 : Half).toNat := by decide

theorem witness_BlockNeverAddressesBeyondCapacity :
    ({ worked with env := [.ownerRead 4] } : State).Inv ∧
    step { worked with env := [.ownerRead 4] } = .fault (.bufferAddress 4) :=
  ⟨worked_inv worked.seq _ trivial, rfl⟩

/-- In a frame, in an idle block with no command waiting, and in an idle block with one. -/
theorem witness_RstResetsEverythingButTheBuffer :
    ((framed .pix 0 0 2 [.rst]).busy = true ∧ (framed .pix 0 0 2 [.rst]).env = .rst :: []) ∧
    (worked.cmds = [] ∧ ({ worked with env := [.rst] } : State).env = .rst :: []) ∧
    ((offered (encode (.setw 0 0x0421)) [.rst]).busy = false ∧
      (offered (encode (.setw 0 0x0421)) [.rst]).cmds = encode (.setw 0 0x0421) :: [] ∧
      (offered (encode (.setw 0 0x0421)) [.rst]).env = .rst :: [] ∧ worked.numLeds.toNat ≤ worked.cap.toNat ∧
      runFor 2 (offered (encode (.setw 0 0x0421)) [.rst]) =
        .next { worked with numLeds := 0, buf := [(0, 0x8421), (1, 0x8421)] }) :=
  ⟨by decide, by decide, by decide, by decide, by decide, by decide, next_of (by decide)⟩

/-- What is in BUF when rst falls after `k` buffer writes of the word `w`, in the state of R87. -/
def abandoned (w : Command) (k : Nat) : Option Memory := after (step (offered w [.rstDuring k])) (fun t => t.buf)

/-- The hypotheses common to the clauses of RstDuringACommandLeavesItPartDone. -/
theorem witness_RstDuringACommandLeavesItPartDone (w : Command) (k : Nat) :
    (offered w [.rstDuring k]).busy = false ∧ (offered w [.rstDuring k]).cmds = w :: [] ∧
    (offered w [.rstDuring k]).env = .rstDuring k :: [] ∧ (offered w [.rstDuring k]).numLeds.toNat ≤ worked.cap.toNat :=
  ⟨rfl, rfl, rfl, show worked.numLeds.toNat ≤ worked.cap.toNat by decide⟩

/-- The clauses that leave BUF as it was: no write made, an illegal word, a command that writes nothing, INIT above C, and
an index at NUMLEDS. -/
theorem witness_RstDuringACommandLeavesItPartDone_nothing_written :
    abandoned (encode .clear) 0 = some worked.buf ∧
    (decode 0x0F0000000000 = .error (.reservedOpcode 0x0F) ∧ abandoned 0x0F0000000000 1 = some worked.buf) ∧
    (decode (encode (.getw 0)) = .ok (.getw 0) ∧ writesBuffer (.getw 0) = false ∧
      abandoned (encode (.getw 0)) 1 = some worked.buf) ∧
    (decode (encode (.init 5)) = .ok (.init 5) ∧ worked.cap.toNat < (5 : Half).toNat ∧
      abandoned (encode (.init 5)) 1 = some worked.buf) ∧
    abandoned (encode (.setw 2 0x0421)) 1 = some worked.buf := by decide

/-- The clauses of the batch commands, after the first of their words. -/
theorem witness_RstDuringACommandLeavesItPartDone_batch :
    (decode (encode .clear) = .ok .clear ∧ abandoned (encode .clear) 1 = some [(0, 0x8000), (1, 0x8421)]) ∧
    (decode (encode (.init 4)) = .ok (.init 4) ∧ (4 : Half).toNat ≤ worked.cap.toNat ∧
      abandoned (encode (.init 4)) 1 = some [(0, 0x8000), (1, 0x8421)]) ∧
    (decode (encode (.scaleall 0x0080)) = .ok (.scaleall 0x0080) ∧
      abandoned (encode (.scaleall 0x0080)) 1 = some [(0, 0x9DE0), (1, 0x8421)]) := by decide

/-- The clauses of the commands with one write, once made. -/
theorem witness_RstDuringACommandLeavesItPartDone_one_write :
    (decode (encode (.setrgb 1 255 128 0)) = .ok (.setrgb 1 255 128 0) ∧
      abandoned (encode (.setrgb 1 255 128 0)) 1 = some [(0, 0xBFE0), (1, 0xBFE0)]) ∧
    (decode (encode (.setw 0 0x0421)) = .ok (.setw 0 0x0421) ∧
      abandoned (encode (.setw 0 0x0421)) 1 = some [(0, 0x8421), (1, 0x8421)]) ∧
    (decode (encode (.scale1 0 0x0080)) = .ok (.scale1 0 0x0080) ∧
      abandoned (encode (.scale1 0 0x0080)) 1 = some [(0, 0x9DE0), (1, 0x8421)]) := by decide

/-- A final state with a step; a command still to be presented, one that waits, and a response not taken are no end; a reset
that abandons the last command, or drops its response, is one (log entry 26). -/
theorem witness_FinalStateIsTheEndOfTheRun :
    ({ worked with env := [.take] } : State).final = true ∧ step { worked with env := [.take] } = .next worked ∧
    ({ State.reset with env := [.present (encode (.showFrame 0))] } : State).final = false ∧
    (offered (encode .nop) []).final = false ∧ ({ worked with rsp := some 0 } : State).final = false ∧
    after (step (framed .pix 0 0 2 [.rst])) State.final = some true ∧
    after (step { worked with rsp := some 0, env := [.rst] }) State.final = some true :=
  ⟨by decide, next_of (by decide), by decide, by decide, by decide, by decide, by decide⟩

/-- A hand-over at each port, one that meets no offer, an idle sequencer, and a step of a frame that records nothing. -/
theorem witness_PortsOfferWhatIsRecorded :
    ((framed .pix 1 5 3 [.transport true]).txPort = some 0x8421 ∧
      (framed .pix 1 5 3 [.transport true]).seq.idx.toNat < worked.cap.toNat) ∧
    (framed .rst1 0 5 1 [.transport false]).txPort = some 0 ∧
    (framed .wait 1 5 4 [.delayOver]).dlyPort = some 5 ∧
    ((framed .wait 1 5 4 [.transport false]).txPort = none ∧ (framed .wait 1 5 4 []).busy = true) ∧
    ((framed .pix 1 5 3 [.delayOver]).dlyPort = none ∧ (framed .pix 1 5 3 []).busy = true) ∧
    worked.seq.phase = .idle ∧
    ((framed .pix 0 0 2 [.take]).seq.phase ≠ .idle ∧ step (framed .pix 0 0 2 [.take]) = .next (framed .pix 0 0 2 [])) :=
  ⟨by decide, by decide, by decide, by decide, by decide, by decide, by decide, next_of (by decide)⟩

/-- The first transfer, the second, that of pixel 0, and the last one. -/
theorem witness_InitStopsAtTheFirstFailedTransfer (k : Nat) (h : k ∈ [0, 1, 2, 5]) :
    (offered (encode (.init 4)) (List.replicate k (.transport false) ++ [.transport true])).accepts
      (encode (.init 4)) [] ∧
    (4 : Half).toNat ≤ worked.cap.toNat ∧ k < (4 : Half).toNat + 2 ∧
    (offered (encode (.init 4)) (List.replicate k (.transport false) ++ [.transport true])).env =
      List.replicate k (.transport false) ++ [.transport true] ++ [] := by
  simp only [List.mem_cons, List.not_mem_nil, or_false] at h
  rcases h with rfl | rfl | rfl | rfl <;>
    exact ⟨offered_accepts _ _ (by intro k m h; cases h), by decide, by decide, by decide⟩

end Sys2Proof.Tests
end

section
/-! PROOFS. The rules about the state's operations that the whole-machine statements of 10_state.md need: which fields the
buffer loops leave, what a command can do to BUF, NUMLEDS, ERR and SEQ, and when an operation cannot fault. -/

namespace Sys2Proof.Machine

/-! ## What the buffer loops leave (41_buffer.md R122, 42_scaler.md R146, R147) -/

@[simp] theorem clearWords_numLeds (n : Nat) (s : State) : (clearWords n s).numLeds = s.numLeds := by
  rw [clearWords_state]
@[simp] theorem clearWords_err (n : Nat) (s : State) : (clearWords n s).err = s.err := by rw [clearWords_state]
@[simp] theorem clearWords_seq (n : Nat) (s : State) : (clearWords n s).seq = s.seq := by rw [clearWords_state]
@[simp] theorem clearWords_rsp (n : Nat) (s : State) : (clearWords n s).rsp = s.rsp := by rw [clearWords_state]

@[simp] theorem scaleWords_numLeds (n : Nat) (f : Half) (s : State) : (scaleWords n f s).numLeds = s.numLeds := by
  rw [scaleWords_state]
@[simp] theorem scaleWords_err (n : Nat) (f : Half) (s : State) : (scaleWords n f s).err = s.err := by
  rw [scaleWords_state]
@[simp] theorem scaleWords_seq (n : Nat) (f : Half) (s : State) : (scaleWords n f s).seq = s.seq := by
  rw [scaleWords_state]

@[simp] theorem scaleOne_numLeds (n f : Half) (s : State) : (scaleOne n f s).numLeds = s.numLeds := by
  rw [scaleOne, updateWord_state]
@[simp] theorem scaleOne_err (n f : Half) (s : State) : (scaleOne n f s).err = s.err := by
  rw [scaleOne, updateWord_state]
@[simp] theorem scaleOne_seq (n f : Half) (s : State) : (scaleOne n f s).seq = s.seq := by
  rw [scaleOne, updateWord_state]

/-- ERR without a record is legal (10_state.md R26). -/
theorem errLegal_zero : errLegal 0 := by decide

/-- A record that stands is kept by the next error (60_exceptions.md R207, R209). -/
theorem raiseError_err_of_recorded {s : State} (e : ErrorCause) (info : BitVec 20) (h : errCause s.err ≠ 0) :
    (raiseError e info s).err = s.err := if_neg h

/-- A word is wire-valid when its bit 15 is set (10_state.md R31). -/
theorem getLsbD_of_wireValid {w : Word} (h : wireValid w = true) : w.getLsbD 15 = true := by
  have hs : startBit w = 1 := by simpa [wireValid] using h
  have hbit := congrArg (fun b => b.getLsbD 0) hs
  simpa [startBit] using hbit

/-! ## What a command does to the rest of the state (30_encoding.md R74) -/

/-- A command ends in one of two ways: with a response, SEQ as it was, or with its frame started, the response still to
come (log entry 22). -/
theorem exec_responds_or_starts {i : Instr} {s t : State} (h : exec i s = .next t) :
    (t.seq = s.seq ∧ t.rsp.isSome = true) ∨
    (∃ d, t.seq = { phase := .rst0, idx := 0, dly := d, cnt := 0 } ∧ t.rsp = s.rsp) := by
  rcases exec_cases h with ⟨e, info, rfl⟩ | ⟨d, rfl⟩ | ⟨n, -, -, rfl⟩ | ⟨n, -, -, rfl⟩ | ⟨-, -, rfl⟩ | ⟨d, -, rfl⟩ |
    ⟨n, v, -, -, -, -, rfl⟩ | ⟨n, -, -, -, rfl⟩ | ⟨n, f, -, -, -, rfl⟩ | ⟨f, -, -, rfl⟩ | ⟨v, -, rfl⟩ | ⟨-, rfl⟩
  · exact .inl ⟨rfl, rfl⟩
  · exact .inl ⟨rfl, rfl⟩
  · exact .inr ⟨0, rfl, clearWords_rsp _ _⟩
  · exact .inl ⟨rfl, rfl⟩
  · exact .inl ⟨clearWords_seq _ _, rfl⟩
  · exact .inr ⟨d, rfl, rfl⟩
  · exact .inl ⟨rfl, rfl⟩
  · exact .inl ⟨memRead_seq _ _, rfl⟩
  · exact .inl ⟨scaleOne_seq n f s, rfl⟩
  · exact .inl ⟨scaleWords_seq _ f s, rfl⟩
  · exact .inl ⟨rfl, rfl⟩
  · exact .inl ⟨rfl, rfl⟩

/-- A command changes NUMLEDS only as SETNUM and INIT do (10_state.md R22). -/
theorem exec_numLeds {i : Instr} {s t : State} (h : exec i s = .next t) :
    t.numLeds = s.numLeds ∨
    ∃ n, (i = .setnum n ∨ i = .init n) ∧ n.toNat ≤ s.cap.toNat ∧ t.numLeds = n := by
  rcases exec_cases h with ⟨e, info, rfl⟩ | ⟨d, rfl⟩ | ⟨n, hi, hn, rfl⟩ | ⟨n, hi, hn, rfl⟩ | ⟨-, -, rfl⟩ | ⟨d, -, rfl⟩ |
    ⟨n, v, -, -, -, -, rfl⟩ | ⟨n, -, -, -, rfl⟩ | ⟨n, f, -, -, -, rfl⟩ | ⟨f, -, -, rfl⟩ | ⟨v, -, rfl⟩ | ⟨-, rfl⟩
  · exact .inl rfl
  · exact .inl rfl
  · exact .inr ⟨n, .inr hi, hn, clearWords_numLeds _ _⟩
  · exact .inr ⟨n, .inl hi, hn, rfl⟩
  · exact .inl (clearWords_numLeds _ _)
  · exact .inl rfl
  · exact .inl rfl
  · exact .inl (memRead_numLeds _ _)
  · exact .inl (scaleOne_numLeds n f s)
  · exact .inl (scaleWords_numLeds _ f s)
  · exact .inl rfl
  · exact .inl rfl

/-- A command changes an ERR that holds a record only as WRCSR 3, 0 does (10_state.md R26, 60_exceptions.md R208). -/
theorem exec_err_of_recorded {i : Instr} {s t : State} (hr : errCause s.err ≠ 0) (h : exec i s = .next t) :
    t.err = s.err ∨ (i = .wrcsr 3 0 ∧ t.err = 0) := by
  rcases exec_cases h with ⟨e, info, rfl⟩ | ⟨d, rfl⟩ | ⟨n, -, -, rfl⟩ | ⟨n, -, -, rfl⟩ | ⟨-, -, rfl⟩ | ⟨d, -, rfl⟩ |
    ⟨n, v, -, -, -, -, rfl⟩ | ⟨n, -, -, -, rfl⟩ | ⟨n, f, -, -, -, rfl⟩ | ⟨f, -, -, rfl⟩ | ⟨v, -, rfl⟩ | ⟨hi, rfl⟩
  · exact .inl (raiseError_err_of_recorded e info hr)
  · exact .inl rfl
  · exact .inl (clearWords_err _ _)
  · exact .inl rfl
  · exact .inl (clearWords_err _ _)
  · exact .inl rfl
  · exact .inl rfl
  · exact .inl (memRead_err _ _)
  · exact .inl (scaleOne_err n f s)
  · exact .inl (scaleWords_err _ f s)
  · exact .inl rfl
  · exact .inr ⟨hi, rfl⟩

/-- The address is one that the command may write: below the count of an INIT, below NUMLEDS for every other command
(10_state.md R36, 44_driver.md R180). -/
def mayWrite (i : Instr) (s : State) (a : Nat) : Prop :=
  (∃ n, i = .init n ∧ a < n.toNat) ∨ ((∀ n, i ≠ .init n) ∧ a < s.numLeds.toNat)

/-- A command leaves a word of BUF as it reads, or writes a wire-valid word to an address that it may write. -/
theorem exec_read_cases {i : Instr} {s t : State} (h : exec i s = .next t) (a : Nat) :
    Memory.read? t.buf a = Memory.read? s.buf a ∨
    (mayWrite i s a ∧ ∃ v, wireValid v = true ∧ Memory.read? t.buf a = some v) := by
  rcases exec_cases h with ⟨e, info, rfl⟩ | ⟨d, rfl⟩ | ⟨n, rfl, -, rfl⟩ | ⟨n, -, -, rfl⟩ | ⟨rfl, -, rfl⟩ | ⟨d, -, rfl⟩ |
    ⟨n, v, hi, hn, -, hv, rfl⟩ | ⟨n, -, -, -, rfl⟩ | ⟨n, f, rfl, hn, -, rfl⟩ | ⟨f, rfl, -, rfl⟩ | ⟨v, -, rfl⟩ | ⟨-, rfl⟩
  · exact .inl rfl
  · exact .inl rfl
  · rw [startFrame_buf, clearWords_read]
    split
    · next ha => exact .inr ⟨.inl ⟨n, rfl, ha⟩, offPixel, wireValid_offPixel, rfl⟩
    · exact .inl rfl
  · exact .inl rfl
  · rw [respond_buf, clearWords_read]
    split
    · next ha => exact .inr ⟨.inr ⟨by simp, ha⟩, offPixel, wireValid_offPixel, rfl⟩
    · exact .inl rfl
  · exact .inl rfl
  · have hinit : ∀ n, i ≠ .init n := by
      rcases hi with ⟨r, g, b, rfl⟩ | ⟨w, rfl⟩ <;> simp
    rw [respond_buf, memWrite_buf, Memory.read_write]
    split
    · next ha => exact .inr ⟨.inr ⟨hinit, ha ▸ hn⟩, v, hv, rfl⟩
    · exact .inl rfl
  · exact .inl (by rw [respond_buf, memRead_buf])
  · rw [respond_buf, scaleOne]
    by_cases ha : a = n.toNat
    · subst ha
      exact .inr ⟨.inr ⟨by simp, hn⟩, _, wireValid_scaleWord _ _ _, updateWord_read_same _ _ _⟩
    · exact .inl (updateWord_read_other _ s ha)
  · rw [respond_buf, scaleWords]
    by_cases ha : a < s.numLeds.toNat
    · obtain ⟨w, -, hw⟩ := updateFrom_read_inside (fun w => scaleWord w f s.srnd) s (n := s.numLeds.toNat) (i := 0)
        (a := a) (by omega)
      exact .inr ⟨.inr ⟨by simp, ha⟩, _, wireValid_scaleWord _ _ _, hw⟩
    · exact .inl (updateFrom_read_outside _ s (by omega))
  · exact .inl rfl
  · exact .inl rfl

/-! ## What a move of an outside agent does to the registers (70_reset_and_hazards.md R242) -/

/-- The serializer keeps an ERR that holds a record (60_exceptions.md R209). -/
theorem transferStep_err_of_recorded {fail : Bool} {s t : State} (hr : errCause s.err ≠ 0)
    (h : transferStep fail s = .next t) : t.err = s.err := by
  rcases transferStep_cases h with ⟨-, rfl⟩ | ⟨-, -, rfl⟩ | ⟨-, -, rfl⟩ | ⟨-, -, rfl⟩ | ⟨-, -, rfl⟩
  · rfl
  · exact raiseError_err_of_recorded _ _ hr
  · rfl
  · rw [afterHeader_state]; rfl
  · have hread := memRead_err s s.seq.idx.toNat
    cases fail with
    | false => rw [if_neg Bool.false_ne_true, afterPixel_state]; exact hread
    | true => exact (raiseError_err_of_recorded _ _ (by simpa using hr)).trans hread

/-- A move of an outside agent is a reset, or leaves NUMLEDS, C, and an ERR that holds a record as they are. -/
theorem agentMove_registers {m : EnvMove} {s t : State} (h : agentMove m s = .next t) :
    ((m = .rst ∨ ∃ k, m = .rstDuring k) ∧ t = s.rst) ∨
    (t.numLeds = s.numLeds ∧ t.cap = s.cap ∧ (errCause s.err ≠ 0 → t.err = s.err)) := by
  rcases agentMove_cases h with ⟨w, -, rfl⟩ | ⟨-, rfl⟩ | ⟨fail, -, h⟩ | ⟨-, h⟩ | ⟨a, w, -, -, -, rfl⟩ |
    ⟨a, -, -, -, rfl⟩ | hrst
  · exact .inr ⟨rfl, rfl, fun _ => rfl⟩
  · rcases takeResponse_cases s with ⟨-, ht⟩ | ⟨r, -, ht⟩ <;> rw [ht] <;> exact .inr ⟨rfl, rfl, fun _ => rfl⟩
  · exact .inr ⟨by rw [transferStep_state h], by rw [transferStep_state h], fun hr => transferStep_err_of_recorded hr h⟩
  · rw [delayStep_state h]
    exact .inr ⟨rfl, rfl, fun _ => rfl⟩
  · exact .inr ⟨rfl, rfl, fun _ => rfl⟩
  · exact .inr ⟨rfl, rfl, fun _ => rfl⟩
  · exact .inl hrst

/-! ## No fault where the addresses exist (20_memory.md R56) -/

/-- An indexed command answers when NUMLEDS <= C. -/
theorem withIndex_answers (n : Half) {s : State} (access : State → State) (h : s.numLeds.toNat ≤ s.cap.toNat) :
    ∃ t, withIndex n s access = .next t := by
  rcases Nat.lt_or_ge n.toNat s.numLeds.toNat with hn | hn
  · exact ⟨_, withIndex_access access hn (by omega)⟩
  · exact ⟨_, withIndex_refuses access hn⟩

/-- A command with a capacity check answers. -/
theorem withCapacity_answers (n : Half) (s : State) (rest : State → State) : ∃ t, withCapacity n s rest = .next t := by
  rcases Nat.lt_or_ge s.cap.toNat n.toNat with hn | hn
  · exact ⟨_, withCapacity_refuses rest hn⟩
  · exact ⟨_, withCapacity_access rest hn⟩

/-- RDCSR answers (45_system.md R186). -/
theorem execRdcsr_answers (c : Half) (s : State) : ∃ t, execRdcsr c s = .next t := by
  unfold execRdcsr; split <;> exact ⟨_, rfl⟩

/-- WRCSR answers (45_system.md R187). -/
theorem execWrcsr_answers (c : Half) (v : Data) (s : State) : ∃ t, execWrcsr c v s = .next t := by
  unfold execWrcsr; split
  · split <;> exact ⟨_, rfl⟩
  · split <;> exact ⟨_, rfl⟩
  all_goals exact ⟨_, rfl⟩

/-- Every command answers when NUMLEDS <= C. -/
theorem exec_answers (i : Instr) {s : State} (h : s.numLeds.toNat ≤ s.cap.toNat) : ∃ t, exec i s = .next t := by
  cases i with
  | init n => rw [exec_init]; exact withCapacity_answers n s _
  | setnum n => rw [exec_setnum]; exact withCapacity_answers n s _
  | clear => rw [exec_clear]; exact ⟨_, withBatch_access _ h⟩
  | scaleall f => rw [exec_scaleall]; exact ⟨_, withBatch_access _ h⟩
  | setrgb n r g b => rw [exec_setrgb]; exact withIndex_answers n _ h
  | setw n w => rw [exec_setw]; exact withIndex_answers n _ h
  | getw n => rw [exec_getw]; exact withIndex_answers n _ h
  | scale1 n f => rw [exec_scale1]; exact withIndex_answers n _ h
  | rdcsr c => exact execRdcsr_answers c s
  | wrcsr c v => exact execWrcsr_answers c v s
  | nop => exact ⟨_, rfl⟩
  | showFrame d => exact ⟨_, rfl⟩
  | encodeRgb r g b => exact ⟨_, rfl⟩
  | decodeWord w => exact ⟨_, rfl⟩
  | scalew w f => exact ⟨_, rfl⟩

/-- A transport move faults only in PIX, when the pixel's address does not exist (43_serializer.md R163). -/
theorem transferStep_fault_cases {fail : Bool} {s : State} {r : Fault} (h : transferStep fail s = .fault r) :
    s.seq.phase = .pix ∧ s.cap.toNat ≤ s.seq.idx.toNat := by
  unfold transferStep at h
  split at h
  · cases h
  · cases h
  · cases h
  · cases h
  · next hp =>
    split at h
    · cases h
    · next hc => exact ⟨hp, by simpa [State.addressable] using hc⟩

/-- A delay move answers. -/
theorem delayStep_answers (s : State) : ∃ t, delayStep s = .next t := by
  unfold delayStep; split <;> exact ⟨_, rfl⟩

/-- The owner's access faults only at an address that does not exist (20_memory.md R60). -/
theorem ownerAccess_fault_cases {a : BitVec 16} {s : State} {access : State → State} {r : Fault}
    (h : ownerAccess a s access = .fault r) : s.cap.toNat ≤ a.toNat ∧ r = .bufferAddress a.toNat := by
  unfold ownerAccess at h
  split at h
  · cases h
  · split at h
    · cases h
    · next hc => cases h; exact ⟨by simpa [State.addressable] using hc, rfl⟩

/-- A move that faults is the owner's, at an address that does not exist, or the transport's. -/
theorem agentMove_fault_cases {m : EnvMove} {s : State} {r : Fault} (h : agentMove m s = .fault r) :
    (∃ fail, transferStep fail s = .fault r) ∨
    ∃ a, (m = .ownerRead a ∨ ∃ w, m = .ownerWrite a w) ∧ s.cap.toNat ≤ a.toNat ∧ r = .bufferAddress a.toNat := by
  cases m with
  | transport fail => exact .inl ⟨fail, h⟩
  | delayOver =>
    obtain ⟨t, ht⟩ := delayStep_answers s
    cases ht.symm.trans h
  | ownerWrite a w =>
    exact .inr ⟨a, .inr ⟨w, rfl⟩,
      ownerAccess_fault_cases (show ownerAccess a s (fun s => s.memWrite a.toNat w) = .fault r from h)⟩
  | ownerRead a =>
    exact .inr ⟨a, .inl rfl, ownerAccess_fault_cases (show ownerAccess a s (fun s => s) = .fault r from h)⟩
  | present w => cases h
  | take => cases h
  | rst => cases h
  | rstDuring k => cases h

/-- A step that faults executes a command or makes the next move of an outside agent. -/
theorem step_fault_cases {s : State} {r : Fault} (h : step s = .fault r) :
    (∃ i waiting, exec i { s with cmds := waiting } = .fault r) ∨
    (∃ m moves, s.env = m :: moves ∧ agentMove m { s with env := moves } = .fault r) := by
  have agents (ha : agentsStep s = .fault r) :
      ∃ m moves, s.env = m :: moves ∧ agentMove m { s with env := moves } = .fault r := by
    unfold agentsStep at ha
    split at ha
    · cases ha
    · next m moves he => exact ⟨m, moves, he, ha⟩
  by_cases hb : s.busy = true
  · exact .inr (agents ((step_of_busy hb).symm.trans h))
  by_cases hc : s.cmds = []
  · exact .inr (agents ((step_of_no_command hc).symm.trans h))
  have hb : s.busy = false := by simpa using hb
  obtain ⟨w, waiting, hc⟩ := List.exists_cons_of_ne_nil hc
  by_cases he : ∃ k moves, s.env = .rstDuring k :: moves
  · obtain ⟨k, moves, he⟩ := he
    simp [step, nextAction, hb, hc, he] at h
  · have he' : ∀ k moves, s.env ≠ .rstDuring k :: moves := fun k moves h => he ⟨k, moves, h⟩
    cases hd : decode w with
    | error e => cases (step_of_illegal hb hc he' hd).symm.trans h
    | ok i => exact .inl ⟨i, waiting, (step_of_command hb hc he' hd).symm.trans h⟩

end Sys2Proof.Machine
end

section
/-! PROOFS. The invariant (10_state.md R23, R26, R27, R34) in two parts: what it says of the data, which every operation
keeps by itself, and what it says of the sequencer, which only the frame's own steps and the start of a frame touch. -/

namespace Sys2Proof.Machine

/-- The clauses of the invariant that do not speak of SEQ. -/
structure State.DataLegal (s : State) : Prop where
  buf : bufLegal s.cap.toNat s.buf
  cap_pos : 1 ≤ s.cap.toNat
  numLeds_le : s.numLeds.toNat ≤ s.cap.toNat
  err : errLegal s.err
  rsp : ∀ r ∈ s.rsp, rspLegal r
  taken : ∀ r ∈ s.taken, rspLegal r

/-- The invariant is its clauses about the data and its two clauses about SEQ. -/
theorem inv_iff (s : State) :
    s.Inv ↔ s.DataLegal ∧ seqLegal s.numLeds.toNat s.seq ∧ (s.seq.phase ≠ .idle → s.rsp = none) := by
  constructor
  · rintro ⟨hbuf, hcap, hnum, herr, hrsp, htaken, hseq, hfree⟩
    exact ⟨⟨hbuf, hcap, hnum, herr, hrsp, htaken⟩, hseq, hfree⟩
  · rintro ⟨⟨hbuf, hcap, hnum, herr, hrsp, htaken⟩, hseq, hfree⟩
    exact ⟨hbuf, hcap, hnum, herr, hrsp, htaken, hseq, hfree⟩

/-! ## The sequencer's clause, phase by phase (43_serializer.md R163, R204) -/

theorem seqLegal_of_idle {n : Nat} {q : Seq} (h : q.phase = .idle) : seqLegal n q := by simp [seqLegal, h]

theorem seqLegal_rst0_iff {n : Nat} {q : Seq} (h : q.phase = .rst0) : seqLegal n q ↔ q.cnt = 0 := by
  simp [seqLegal, h]

theorem seqLegal_rst1_iff {n : Nat} {q : Seq} (h : q.phase = .rst1) : seqLegal n q ↔ q.cnt = 1 := by
  simp [seqLegal, h]

theorem seqLegal_pix_iff {n : Nat} {q : Seq} (h : q.phase = .pix) :
    seqLegal n q ↔ q.idx.toNat < n ∧ q.cnt.toNat = q.idx.toNat + 2 := by simp [seqLegal, h]

theorem seqLegal_wait_iff {n : Nat} {q : Seq} (h : q.phase = .wait) :
    seqLegal n q ↔ q.idx.toNat < n ∧ q.cnt.toNat = q.idx.toNat + 3 ∧ q.dly ≠ 0 := by simp [seqLegal, h]

/-- With the sequencer idle the data are all the invariant speaks of. -/
theorem State.DataLegal.inv_of_idle {s : State} (h : s.DataLegal) (hi : s.seq.phase = .idle) : s.Inv :=
  (inv_iff s).mpr ⟨h, seqLegal_of_idle hi, fun hf => absurd hi hf⟩

/-- In a frame no response is pending and SEQ is legal. -/
theorem State.DataLegal.inv_of_frame {s : State} (h : s.DataLegal) (hr : s.rsp = none)
    (hq : seqLegal s.numLeds.toNat s.seq) : s.Inv :=
  (inv_iff s).mpr ⟨h, hq, fun _ => hr⟩

/-! ## The data under each operation -/

section
variable {s : State} (h : s.DataLegal)
include h

theorem State.DataLegal.respond (d : Data) : (respond d s).DataLegal :=
  { h with rsp := by simpa using rspLegal_ok d }

theorem State.DataLegal.raiseError (e : ErrorCause) (info : BitVec 20) : (raiseError e info s).DataLegal :=
  { h with
    err := errLegal_raiseError e info s h.err
    rsp := by simpa using rspLegal_error e (info.setWidth 24) }

theorem State.DataLegal.clearError : (clearError s).DataLegal :=
  { h with err := errLegal_zero }

theorem State.DataLegal.setMode (v : Data) : (setMode v s).DataLegal := { h with }

theorem State.DataLegal.setNumLeds {n : Half} (hn : n.toNat ≤ s.cap.toNat) : (setNumLeds n s).DataLegal :=
  { h with numLeds_le := hn }

theorem State.DataLegal.startFrame (d : BitVec 16) : (startFrame d s).DataLegal := { h with }

theorem State.DataLegal.withPhase (p : Phase) : (s.withPhase p).DataLegal := { h with }

theorem State.DataLegal.record (e : WireEvent) : (s.record e).DataLegal := { h with }

theorem State.DataLegal.sentWord (w : Word) : (sentWord w s).DataLegal := { h with }

theorem State.DataLegal.memRead (a : Nat) : (s.memRead a).2.DataLegal := by
  rw [memRead_state]; exact { h with }

/-- Any other legal BUF leaves the data legal. -/
theorem State.DataLegal.withBuf {b : Memory} (draws : Nat) (hb : bufLegal s.cap.toNat b) :
    ({ s with buf := b, draws := draws } : State).DataLegal :=
  { h with buf := hb }

theorem State.DataLegal.memWrite {a : Nat} (v : Word) (ha : a < s.cap.toNat) : (s.memWrite a v).DataLegal :=
  h.withBuf s.draws (bufLegal_write v h.buf ha)

theorem State.DataLegal.clearWords {n : Nat} (hn : n ≤ s.cap.toNat) : (clearWords n s).DataLegal := by
  rw [clearWords_state]
  exact h.withBuf s.draws (fillFrom_bufLegal offPixel n 0 s h.buf (by omega))

theorem State.DataLegal.scaleOne {n : Half} (f : Half) (hn : n.toNat < s.cap.toNat) : (scaleOne n f s).DataLegal := by
  rw [Machine.scaleOne, updateWord_state]
  exact h.withBuf _ (updateWord_bufLegal _ s h.buf hn)

theorem State.DataLegal.scaleWords {n : Nat} (f : Half) (hn : n ≤ s.cap.toNat) : (scaleWords n f s).DataLegal := by
  rw [scaleWords_state]
  exact h.withBuf _ (updateFrom_bufLegal _ n 0 s h.buf (by omega))

/-- Reset clears the registers and keeps BUF and C (70_reset_and_hazards.md R230). -/
theorem State.DataLegal.rst : s.rst.DataLegal :=
  { h with numLeds_le := Nat.zero_le _, err := errLegal_zero, rsp := fun _ hr => nomatch hr }

theorem State.DataLegal.takeResponse : (takeResponse s).DataLegal := by
  rcases takeResponse_cases s with ⟨-, ht⟩ | ⟨r, hr, ht⟩ <;> rw [ht]
  · exact h
  · refine { h with rsp := fun _ hq => (nomatch hq), taken := fun q hq => ?_ }
    rcases List.mem_append.mp hq with hq | hq
    · exact h.taken q hq
    · obtain rfl : q = r := by simpa using hq
      exact h.rsp q hr

/-- An abandoned single write is made at an address that exists, or not made (R231). -/
theorem State.DataLegal.abandonedAccess {n : Half} {k : Nat} {access : State → State}
    (ha : n.toNat < s.cap.toNat → (access s).DataLegal) : (abandonedAccess n k s access).DataLegal := by
  unfold Machine.abandonedAccess
  split
  · next hc => exact ha (by simpa [State.addressable] using hc.2.2)
  · exact h

/-- The writes of an abandoned command are at addresses that exist (R231). -/
theorem State.DataLegal.partlyDone (i : Instr) (k : Nat) : (partlyDone i k s).DataLegal := by
  cases i with
  | init n =>
    simp only [Machine.partlyDone]
    split
    · exact h
    · exact h.clearWords (by omega)
  | clear => exact h.clearWords (by omega)
  | scaleall f => exact h.scaleWords f (by omega)
  | setrgb n r g b => exact h.abandonedAccess (h.memWrite _)
  | setw n w => exact h.abandonedAccess (h.memWrite _)
  | scale1 n f => exact h.abandonedAccess (h.scaleOne f)
  | _ => exact h

theorem State.DataLegal.abandonCommand (w : Command) (k : Nat) : (abandonCommand w k s).DataLegal := by
  unfold Machine.abandonCommand
  split
  · exact (h.partlyDone _ k).rst
  · exact h.rst

/-- Every command keeps the data legal. -/
theorem State.DataLegal.exec {i : Instr} {t : State} (he : exec i s = .next t) : t.DataLegal := by
  rcases exec_cases he with ⟨e, info, rfl⟩ | ⟨d, rfl⟩ | ⟨n, -, hn, rfl⟩ | ⟨n, -, hn, rfl⟩ | ⟨-, hn, rfl⟩ | ⟨d, -, rfl⟩ |
    ⟨n, v, -, -, hn, -, rfl⟩ | ⟨n, -, -, -, rfl⟩ | ⟨n, f, -, -, hn, rfl⟩ | ⟨f, -, hn, rfl⟩ | ⟨v, -, rfl⟩ | ⟨-, rfl⟩
  · exact h.raiseError e info
  · exact h.respond d
  · exact ((h.setNumLeds hn).clearWords hn).startFrame 0
  · exact (h.setNumLeds hn).respond 0
  · exact (h.clearWords hn).respond 0
  · exact h.startFrame d
  · exact (h.memWrite v hn).respond 0
  · exact (h.memRead _).respond _
  · exact (h.scaleOne f hn).respond 0
  · exact (h.scaleWords f hn).respond 0
  · exact (h.setMode v).respond 0
  · exact h.clearError.respond 0

end

/-! ## The steps of a frame (43_serializer.md R163) -/

section
variable {s : State} (h : s.DataLegal)
include h

theorem finishFrame_inv : (finishFrame s).Inv := ((h.withPhase .idle).respond 0).inv_of_idle rfl

theorem failedWord_inv (w : Word) : (failedWord w s).Inv :=
  (((h.record (.fail w)).withPhase .idle).raiseError _ _).inv_of_idle rfl

/-- After the second zero word two words have been sent. -/
theorem afterHeader_inv (hr : s.rsp = none) (hcnt : s.seq.cnt = 2) : (afterHeader s).Inv := by
  unfold afterHeader
  split
  · exact finishFrame_inv h
  · next hn =>
    have hpos : 0 < s.numLeds.toNat := Nat.pos_of_ne_zero fun h0 => hn (BitVec.eq_of_toNat_eq h0)
    have hd : ({ s with seq := { s.seq with idx := 0, phase := .pix } } : State).DataLegal := { h with }
    exact hd.inv_of_frame hr ((seqLegal_pix_iff rfl).mpr ⟨hpos, by simp [hcnt]⟩)

/-- Once pixel IDX has been sent, IDX + 3 words have; the next pixel is below NUMLEDS unless the frame is over. -/
theorem advanceFrame_inv (hr : s.rsp = none) (hidx : s.seq.idx.toNat < s.numLeds.toNat)
    (hcnt : s.seq.cnt.toNat = s.seq.idx.toNat + 3) : (advanceFrame s).Inv := by
  rcases advanceFrame_cases s with ⟨-, ha⟩ | ⟨hlast, ha⟩ <;> rw [ha]
  · exact finishFrame_inv h
  · have hnum := s.numLeds.isLt
    have hnext : (s.seq.idx + 1).toNat = s.seq.idx.toNat + 1 := by
      rw [BitVec.toNat_add]; exact Nat.mod_eq_of_lt (by simp; omega)
    have hd : ({ s with seq := { s.seq with idx := s.seq.idx + 1, phase := .pix } } : State).DataLegal := { h with }
    refine hd.inv_of_frame hr ((seqLegal_pix_iff rfl).mpr ⟨?_, ?_⟩)
    · show (s.seq.idx + 1).toNat < s.numLeds.toNat
      omega
    · show s.seq.cnt.toNat = (s.seq.idx + 1).toNat + 2
      omega

theorem afterPixel_inv (hr : s.rsp = none) (hidx : s.seq.idx.toNat < s.numLeds.toNat)
    (hcnt : s.seq.cnt.toNat = s.seq.idx.toNat + 3) : (afterPixel s).Inv := by
  unfold afterPixel
  split
  · exact advanceFrame_inv h hr hidx hcnt
  · next hd => exact (h.withPhase .wait).inv_of_frame hr ((seqLegal_wait_iff rfl).mpr ⟨hidx, hcnt, hd⟩)

end

/-- CNT has room for every word of a frame: two zero words and up to 65535 pixels in 20 bits (60_exceptions.md R204). -/
theorem cnt_succ_toNat {cnt : BitVec 20} {idx : BitVec 16} (h : cnt.toNat = idx.toNat + 2) :
    (cnt + 1).toNat = idx.toNat + 3 := by
  have hidx := idx.isLt
  rw [BitVec.toNat_add]
  simp
  omega

/-- Every move of the transport keeps the invariant. -/
theorem transferStep_inv {fail : Bool} {s t : State} (h : s.Inv) (ht : transferStep fail s = .next t) : t.Inv := by
  obtain ⟨hdata, hseq, hfree⟩ := (inv_iff s).mp h
  rcases transferStep_cases ht with ⟨-, rfl⟩ | ⟨-, -, rfl⟩ | ⟨hp, -, rfl⟩ | ⟨hp, -, rfl⟩ | ⟨hp, -, rfl⟩
  · exact h
  · exact failedWord_inv hdata 0
  · have hcnt := (seqLegal_rst0_iff hp).mp hseq
    exact ((hdata.sentWord 0).withPhase .rst1).inv_of_frame (hfree (by simp [hp]))
      ((seqLegal_rst1_iff rfl).mpr (by simp [hcnt]))
  · have hcnt := (seqLegal_rst1_iff hp).mp hseq
    exact afterHeader_inv (hdata.sentWord 0) (hfree (by simp [hp])) (by simp [hcnt])
  · obtain ⟨hidx, hcnt⟩ := (seqLegal_pix_iff hp).mp hseq
    have hread := hdata.memRead s.seq.idx.toNat
    cases fail with
    | true => exact failedWord_inv hread _
    | false =>
      exact afterPixel_inv (hread.sentWord _) (by simpa using hfree (by simp [hp])) (by simpa using hidx)
        (by simpa using cnt_succ_toNat hcnt)

/-- Every move of the delay primitive keeps the invariant. -/
theorem delayStep_inv {s t : State} (h : s.Inv) (ht : delayStep s = .next t) : t.Inv := by
  obtain ⟨hdata, hseq, hfree⟩ := (inv_iff s).mp h
  rcases delayStep_cases ht with ⟨-, rfl⟩ | ⟨hp, rfl⟩
  · exact h
  · obtain ⟨hidx, hcnt, -⟩ := (seqLegal_wait_iff hp).mp hseq
    exact advanceFrame_inv (hdata.record _) (hfree (by simp [hp])) hidx hcnt

/-! ## Every step -/

/-- A command executed by an idle block keeps the invariant. -/
theorem exec_inv {i : Instr} {s t : State} (h : s.Inv) (hb : s.busy = false) (he : exec i s = .next t) : t.Inv := by
  obtain ⟨hidle, hrsp⟩ := (busy_eq_false_iff s).mp hb
  have hdata := ((inv_iff s).mp h).1.exec he
  rcases exec_responds_or_starts he with ⟨hq, -⟩ | ⟨d, hq, hr⟩
  · exact hdata.inv_of_idle (by rw [hq, hidle])
  · exact hdata.inv_of_frame (hr.trans hrsp) ((seqLegal_rst0_iff (by rw [hq])).mpr (by rw [hq]))

theorem takeResponse_inv {s : State} (h : s.Inv) : (takeResponse s).Inv := by
  obtain ⟨hdata, hseq, hfree⟩ := (inv_iff s).mp h
  refine (inv_iff _).mpr ⟨hdata.takeResponse, ?_⟩
  rcases takeResponse_cases s with ⟨-, ht⟩ | ⟨r, -, ht⟩ <;> rw [ht]
  · exact ⟨hseq, hfree⟩
  · exact ⟨hseq, fun _ => rfl⟩

/-- Every move of an outside agent keeps the invariant. -/
theorem agentMove_inv {m : EnvMove} {s t : State} (h : s.Inv) (ht : agentMove m s = .next t) : t.Inv := by
  have hdata := ((inv_iff s).mp h).1
  rcases agentMove_cases ht with ⟨w, -, rfl⟩ | ⟨-, rfl⟩ | ⟨fail, -, ht⟩ | ⟨-, ht⟩ | ⟨a, w, -, hb, ha, rfl⟩ |
    ⟨a, -, -, -, rfl⟩ | ⟨-, rfl⟩
  · exact h
  · exact takeResponse_inv h
  · exact transferStep_inv h ht
  · exact delayStep_inv h ht
  · exact (hdata.memWrite w ha).inv_of_idle ((busy_eq_false_iff s).mp hb).1
  · exact h
  · exact hdata.rst.inv_of_idle rfl

/-- Settles O52, by the cases of a step; the invariant does not speak of the lists `cmds` and `env`, which accepting a
word and making a move shorten. -/
theorem invariantIsKeptByEveryStep : Obligations.InvariantIsKeptByEveryStep := by
  intro s t h ht
  rcases step_cases ht with ⟨w, waiting, i, hacc, -, he⟩ | ⟨w, waiting, e, hacc, -, rfl⟩ |
    ⟨w, waiting, k, moves, -, -, -, rfl⟩ | ⟨-, -, rfl⟩ | ⟨m, moves, -, -, hm⟩
  · exact exec_inv (s := { s with cmds := waiting }) h hacc.1 he
  · have hw : ({ s with cmds := waiting } : State).DataLegal := { ((inv_iff s).mp h).1 with }
    exact (hw.raiseError _ _).inv_of_idle ((busy_eq_false_iff s).mp hacc.1).1
  · have hw : ({ s with cmds := waiting, env := moves } : State).DataLegal := { ((inv_iff s).mp h).1 with }
    exact (hw.abandonCommand w k).inv_of_idle (by rw [abandonCommand_state]; rfl)
  · exact h
  · exact agentMove_inv (s := { s with env := moves }) h hm

/-- The power-up state has the invariant for every capacity from 1 up (10_state.md R33). -/
theorem resetWith_inv {c : Half} (hc : 1 ≤ c.toNat) : (State.resetWith c).Inv :=
  State.DataLegal.inv_of_idle
    { buf := ⟨rfl, fun _ hcell => nomatch hcell⟩
      cap_pos := hc
      numLeds_le := Nat.zero_le _
      err := errLegal_zero
      rsp := fun _ hr => nomatch hr
      taken := fun _ hr => nomatch hr } rfl

/-- Settles O53: State.reset is the power-up state of a capacity from 1 up. -/
theorem invariantHoldsAtReset : Obligations.InvariantHoldsAtReset :=
  ⟨fun _ hc => resetWith_inv hc, resetWith_inv (by decide)⟩

/-- In PIX the invariant puts the pixel's address below C, so no move of the transport faults. -/
theorem transferStep_ne_fault {fail : Bool} {s : State} {r : Fault} (h : s.Inv) : transferStep fail s ≠ .fault r := by
  intro hf
  obtain ⟨hdata, hseq, -⟩ := (inv_iff s).mp h
  obtain ⟨hp, hcap⟩ := transferStep_fault_cases hf
  have hidx := ((seqLegal_pix_iff hp).mp hseq).1
  have hnum := hdata.numLeds_le
  omega

/-- Settles O54: no command and no transport move faults under the invariant, which leaves the owner's access. -/
theorem blockNeverAddressesBeyondCapacity : Obligations.BlockNeverAddressesBeyondCapacity := by
  intro s r h hf
  rcases step_fault_cases hf with ⟨i, waiting, he⟩ | ⟨m, moves, henv, hm⟩
  · obtain ⟨t, ht⟩ := exec_answers i (s := { s with cmds := waiting }) ((inv_iff s).mp h).1.numLeds_le
    cases ht.symm.trans he
  · rcases agentMove_fault_cases hm with ⟨fail, ht⟩ | ⟨a, hmove, hcap, hr⟩
    · exact absurd ht (transferStep_ne_fault (s := { s with env := moves }) h)
    · refine ⟨a, moves, hcap, hr, ?_⟩
      rcases hmove with rfl | ⟨w, rfl⟩
      · exact .inl henv
      · exact .inr ⟨w, henv⟩

end Sys2Proof.Machine
end

section
/-! PROOFS. The statements of 10_state.md about single pieces of state: which steps write BUF, NUMLEDS, C and ERR, that an
accepted word makes the block busy, and what reset leaves. -/

namespace Sys2Proof.Machine

/-- A block with a response pending is busy (10_state.md R28). -/
theorem busy_of_rsp {s : State} (h : s.rsp.isSome = true) : s.busy = true := by simp [State.busy, h]

/-- A command leaves the block busy: with its response pending or its frame in progress (R28). -/
theorem exec_busy {i : Instr} {s t : State} (h : exec i s = .next t) : t.busy = true := by
  rcases exec_responds_or_starts h with ⟨-, hr⟩ | ⟨d, hq, -⟩
  · exact busy_of_rsp hr
  · simp [State.busy, hq]

/-- Settles O9: a command answers or starts its frame, and an illegal word is answered. -/
theorem acceptedCommandMakesTheBlockBusy : Obligations.AcceptedCommandMakesTheBlockBusy := by
  rintro s t w waiting ⟨hb, hc, he⟩ ht
  cases hd : decode w with
  | ok i =>
    have hx := (step_of_command hb hc he hd).symm.trans ht
    refine ⟨exec_busy hx, ?_, ?_, ?_⟩ <;> rw [exec_state hx]
  | error e =>
    cases (step_of_illegal hb hc he hd).symm.trans ht
    exact ⟨busy_of_rsp rfl, rfl, rfl, rfl⟩

/-- Settles O13, by the cases of a step. -/
theorem errorRecordIsClearedOnlyByWrcsrOrReset : Obligations.ErrorRecordIsClearedOnlyByWrcsrOrReset := by
  intro s t hr ht hne
  rcases step_cases ht with ⟨w, waiting, i, hacc, hd, he⟩ | ⟨w, waiting, e, -, -, rfl⟩ |
    ⟨w, waiting, k, moves, -, -, henv, rfl⟩ | ⟨-, -, rfl⟩ | ⟨m, moves, -, henv, hm⟩
  · rcases exec_err_of_recorded (s := { s with cmds := waiting }) hr he with hkeep | ⟨rfl, h0⟩
    · exact absurd hkeep hne
    · exact ⟨h0, .inl ⟨w, waiting, hacc, hd⟩⟩
  · exact absurd (raiseError_err_of_recorded (s := { s with cmds := waiting }) _ _ hr) hne
  · exact ⟨by rw [abandonCommand_state]; rfl, .inr (.inr ⟨k, moves, henv⟩)⟩
  · exact absurd rfl hne
  · rcases agentMove_registers hm with ⟨hrst, rfl⟩ | ⟨-, -, hkeep⟩
    · refine ⟨rfl, .inr ?_⟩
      rcases hrst with rfl | ⟨k, rfl⟩
      · exact .inl ⟨moves, henv⟩
      · exact .inr ⟨k, moves, henv⟩
    · exact absurd (hkeep hr) hne

/-- A step of any agent that changes NUMLEDS accepted SETNUM or INIT or was a reset (R22, 70_reset_and_hazards.md R230). -/
theorem step_numLeds {s t : State} (ht : step s = .next t) (hne : t.numLeds ≠ s.numLeds) :
    (∃ w waiting n, s.accepts w waiting ∧ (decode w = .ok (.setnum n) ∨ decode w = .ok (.init n)) ∧
      n.toNat ≤ s.cap.toNat ∧ t.numLeds = n) ∨
    (t.numLeds = 0 ∧ ((∃ moves, s.env = .rst :: moves) ∨ ∃ k moves, s.env = .rstDuring k :: moves)) := by
  rcases step_cases ht with ⟨w, waiting, i, hacc, hd, he⟩ | ⟨w, waiting, e, -, -, rfl⟩ |
    ⟨w, waiting, k, moves, -, -, henv, rfl⟩ | ⟨-, -, rfl⟩ | ⟨m, moves, -, henv, hm⟩
  · rcases exec_numLeds he with hkeep | ⟨n, hi, hn, hnum⟩
    · exact absurd hkeep hne
    · refine .inl ⟨w, waiting, n, hacc, ?_, hn, hnum⟩
      rcases hi with rfl | rfl
      · exact .inl hd
      · exact .inr hd
  · exact absurd rfl hne
  · exact .inr ⟨by rw [abandonCommand_state]; rfl, .inr ⟨k, moves, henv⟩⟩
  · exact absurd rfl hne
  · rcases agentMove_registers hm with ⟨hrst, rfl⟩ | ⟨hkeep, -, -⟩
    · refine .inr ⟨rfl, ?_⟩
      rcases hrst with rfl | ⟨k, rfl⟩
      · exact .inl ⟨moves, henv⟩
      · exact .inr ⟨k, moves, henv⟩
    · exact absurd hkeep hne

/-- Settles O47: the commands by `exec_numLeds`, the steps by `step_numLeds`. -/
theorem numledsIsWrittenOnlyBySetnumAndInit : Obligations.NumledsIsWrittenOnlyBySetnumAndInit :=
  ⟨fun _ _ _ h hne => (exec_numLeds h).resolve_left hne, fun _ _ => step_numLeds⟩

/-- No step of any agent changes C (10_state.md R24). -/
theorem step_cap {s t : State} (ht : step s = .next t) : t.cap = s.cap := by
  rcases step_cases ht with ⟨w, waiting, i, -, -, he⟩ | ⟨w, waiting, e, -, -, rfl⟩ |
    ⟨w, waiting, k, moves, -, -, -, rfl⟩ | ⟨-, -, rfl⟩ | ⟨m, moves, -, -, hm⟩
  · rw [exec_state he]
  · rfl
  · rw [abandonCommand_state]; rfl
  · rfl
  · rcases agentMove_registers hm with ⟨-, rfl⟩ | ⟨-, hcap, -⟩
    · rfl
    · exact hcap

/-- An OK response is its data as a number (30_encoding.md R78). -/
theorem response_zero_eq_ofNat (d : Data) : response 0 d = BitVec.ofNat 32 d.toNat := by
  apply BitVec.eq_of_toNat_eq
  have hd := d.isLt
  rw [response, BitVec.toNat_append, BitVec.toNat_ofNat]
  simp
  omega

/-- RDCSR 1 answers C (45_system.md R186). -/
theorem exec_rdcsr_cap (s : State) :
    exec (.rdcsr 1) s = .next { s with rsp := some (BitVec.ofNat 32 s.cap.toNat) } := by
  have hcap : (s.cap.setWidth 24).toNat = s.cap.toNat := by
    have := s.cap.isLt
    simp; omega
  rw [← hcap, ← response_zero_eq_ofNat]
  rfl

/-- Settles O48. -/
theorem capacityNeverChanges : Obligations.CapacityNeverChanges := ⟨fun _ _ => step_cap, exec_rdcsr_cap⟩

/-- Settles O49: a word that reads otherwise than before is one the command wrote. -/
theorem commandsWriteWireValidWords : Obligations.CommandsWriteWireValidWords := by
  intro i s t a w he hw hne
  rcases exec_read_cases he a with hkeep | ⟨-, v, hv, hread⟩
  · exact absurd (hkeep.symm.trans hw) hne
  · obtain rfl : w = v := Option.some.inj (hw.symm.trans hread)
    exact getLsbD_of_wireValid hv

/-- Settles O50: a word that a command may write is below NUMLEDS, or below the count of an INIT. -/
theorem wordsAboveNumledsKeepTheirContent : Obligations.WordsAboveNumledsKeepTheirContent := by
  intro i s t a he
  rcases exec_read_cases he a with hkeep | ⟨hmay, -⟩
  · exact ⟨fun _ _ => hkeep, fun _ _ _ => hkeep⟩
  · rcases hmay with ⟨n, rfl, ha⟩ | ⟨hinit, ha⟩
    · refine ⟨fun hinit => absurd rfl (hinit n), fun m hm hle => ?_⟩
      cases hm
      omega
    · exact ⟨fun _ hle => by omega, fun n hn => absurd hn (hinit n)⟩

/-- Settles O55: reset fixes every one of these fields at its specified value, and nothing in an empty BUF is written. -/
theorem resetLeavesTheSpecifiedState : Obligations.ResetLeavesTheSpecifiedState :=
  fun _ => ⟨rfl, rfl, rfl, rfl, rfl, rfl, rfl, rfl, fun _ => rfl, rfl⟩

end Sys2Proof.Machine
end

section
/-! PROOFS. The statement of 20_memory.md about the buffer owner: when its access is granted and when it is refused (R60). -/

namespace Sys2Proof.Machine

/-- When the block leaves the moves to the agents, the move laid out first is made (70_reset_and_hazards.md R242). -/
theorem agentsStep_of_move {s : State} {m : EnvMove} {moves : List EnvMove} (he : s.env = m :: moves) :
    agentsStep s = agentMove m { s with env := moves } := by
  simp [agentsStep, he]

/-- An idle block grants the owner an address that exists (20_memory.md R60). -/
theorem ownerAccess_of_idle {a : BitVec 16} {s : State} (access : State → State) (hb : s.busy = false)
    (ha : a.toNat < s.cap.toNat) : ownerAccess a s access = .next (access s) := by
  simp [ownerAccess, hb, State.addressable, ha]

/-- A busy block has no owner's access (R60, 93_implementation_defined.md U3). -/
theorem ownerAccess_of_busy {a : BitVec 16} {s : State} (access : State → State) (hb : s.busy = true) :
    ownerAccess a s access = .refused .ownerWhileBusy := if_pos hb

/-- Settles O51: idle, the step is one write to the owner's address; busy, the owner's move is still the one made, and it
is refused. -/
theorem ownerWritesOnlyWhileIdle : Obligations.OwnerWritesOnlyWhileIdle := by
  intro s a w moves henv
  have hmove : agentsStep s =
      ownerAccess a { s with env := moves } (fun s => s.memWrite a.toNat w) := agentsStep_of_move henv
  refine ⟨fun hb hc ha => ?_, fun hb => ?_⟩
  · have hstep : step s = .next (({ s with env := moves } : State).memWrite a.toNat w) :=
      calc step s = agentsStep s := step_of_no_command hc
        _ = _ := hmove
        _ = _ := ownerAccess_of_idle _ hb ha
    exact ⟨_, hstep, Memory.read_write_same _ _ _, fun _ hne => Memory.read_write_other _ _ hne, rfl⟩
  · calc step s = agentsStep s := step_of_busy hb
      _ = _ := hmove
      _ = .refused .ownerWhileBusy := ownerAccess_of_busy _ hb

end Sys2Proof.Machine
end

section
/-! PROOFS. The statements of 30_encoding.md about command words: decoder and encoder are inverse to each other (R70 to
R74, R82), and the masks and patterns of the opcode table say the same as the decoder (R74, R76). -/

namespace Sys2Proof

/-! ## Encoding, then decoding (R72, R74) -/

/-- The format of a command (R72, R74). -/
def Instr.format : Instr → Format
  | .nop => .n
  | .init _ => .a
  | .setnum _ => .a
  | .clear => .n
  | .showFrame _ => .a
  | .setrgb _ _ _ _ => .ac
  | .setw _ _ => .ah
  | .getw _ => .a
  | .scale1 _ _ => .ah
  | .scaleall _ => .h
  | .encodeRgb _ _ _ => .c
  | .decodeWord _ => .a
  | .scalew _ _ => .ah
  | .rdcsr _ => .a
  | .wrcsr _ _ => .av

/-- The opcode map finds every command under its own opcode, with its own operands (R74). -/
theorem opcodeMap_instr (i : Instr) : opcodeMap i.opcode i.aOperand i.bOperand = some (i.format, i) := by
  cases i <;> simp [opcodeMap, Instr.opcode, Instr.aOperand, Instr.bOperand, Instr.format]

/-- A command has 0 in every field its format reserves (R72, R76). -/
theorem reservedZero_instr (i : Instr) : i.format.reservedZero i.aOperand i.bOperand = true := by
  cases i <;> simp [Format.reservedZero, Instr.aOperand, Instr.bOperand, Instr.format]

/-- The decoder reads a command exactly when the opcode map has the opcode and the reserved fields are 0 (R77). -/
theorem decode_eq_ok_iff_fields {w : Command} {i : Instr} :
    decode w = .ok i ↔
      ∃ f, opcodeMap (opField w) (aField w) (bField w) = some (f, i) ∧
        f.reservedZero (aField w) (bField w) = true := by
  unfold decode
  split
  · next hnone => simp [hnone]
  · next f j hsome =>
    cases hz : f.reservedZero (aField w) (bField w) <;> simp [hsome, hz]

theorem decode_encode (i : Instr) : decode (encode i) = .ok i :=
  decode_eq_ok_iff_fields.mpr ⟨i.format, by simpa using opcodeMap_instr i, by simpa using reservedZero_instr i⟩

/-- A decoded word has the opcode and the operands of its command, and nothing else (R70, R76). -/
theorem fields_of_decode {w : Command} {i : Instr} (h : decode w = .ok i) :
    i.opcode = opField w ∧ i.aOperand = aField w ∧ i.bOperand = bField w := by
  obtain ⟨f, hmap, hzero⟩ := decode_eq_ok_iff_fields.mp h
  exact opcodeMap_fields hmap hzero

theorem encode_of_decode {w : Command} {i : Instr} (h : decode w = .ok i) : encode i = w := by
  obtain ⟨hop, ha, hb⟩ := fields_of_decode h
  rw [encode, hop, ha, hb]
  exact fields_append w

/-- Settles O1. -/
theorem decodeReadsBackEveryEncodedCommand : Obligations.DecodeReadsBackEveryEncodedCommand := decode_encode

/-- Settles O2. -/
theorem encodeReproducesEveryDecodedWord : Obligations.EncodeReproducesEveryDecodedWord := fun _ _ => encode_of_decode

/-- Settles O4. -/
theorem workedWordsDecode : Obligations.WorkedWordsDecode :=
  ⟨by decide, by decide, by decide, by decide, by decide, by decide, by decide⟩

/-! ## The opcode table as opcodes and formats (R72, R74) -/

/-- B[23:16], the bits that formats H and AH reserve (R71, R72). -/
def highMask : Data := 0xFF#8 ++ 0#16

/-- The bits of A that the format reserves (R72). -/
def Format.aMask : Format → Half
  | .n => 0xFFFF
  | .a => 0
  | .c => 0xFFFF
  | .h => 0xFFFF
  | .ac => 0
  | .ah => 0
  | .av => 0

/-- The bits of B that the format reserves (R72). -/
def Format.bMask : Format → Data
  | .n => 0xFFFFFF
  | .a => 0xFFFFFF
  | .c => 0
  | .h => highMask
  | .ac => 0
  | .ah => highMask
  | .av => 0

/-- The row of the opcode table for a mnemonic, an opcode and a format: the opcode byte is fixed, and so are, at 0, the
bits the format reserves (R74). -/
def formatRow (mnemonic : String) (op : BitVec 8) (f : Format) : OpcodeRow :=
  ⟨mnemonic, op ++ 0#16 ++ 0#24, 0xFF#8 ++ f.aMask ++ f.bMask⟩

/-- The mask of B[23:16] keeps nothing exactly when the high byte is 0 (R71). -/
theorem and_highMask_eq_zero_iff (b : Data) : b &&& highMask = 0 ↔ bHigh b = 0 := by
  have hb : b = bHigh b ++ bHalf b := (BitVec.extractLsb'_append_extractLsb' (w := 8) (len := 16)).symm
  have hmasked : b &&& highMask = bHigh b ++ 0#16 :=
    calc b &&& highMask = (bHigh b ++ bHalf b) &&& (0xFF#8 ++ 0#16) := by rw [← hb]; rfl
      _ = bHigh b ++ 0#16 := by
        rw [BitVec.and_append, BitVec.and_zero, show bHigh b &&& 0xFF#8 = bHigh b from BitVec.and_allOnes]
  rw [hmasked]
  exact BitVec.append_left_inj (s₂ := 0#8) 0#16

/-- The reserved fields are 0 exactly when the masks of the format keep nothing (R72, R76). -/
theorem reservedZero_iff_masks (f : Format) (a : Half) (b : Data) :
    f.reservedZero a b = true ↔ a &&& f.aMask = 0 ∧ b &&& f.bMask = 0 := by
  have ha : a &&& 0xFFFF#16 = a := BitVec.and_allOnes
  have hb : b &&& 0xFFFFFF#24 = b := BitVec.and_allOnes
  have hhigh : b &&& highMask = 0#24 ↔ bHigh b = 0#8 := and_highMask_eq_zero_iff b
  cases f <;> simp [Format.reservedZero, Format.aMask, Format.bMask, ha, hb, hhigh]

/-- Two words put together from fields are equal exactly when their fields are (R70). -/
theorem append_eq_append_iff (op op' : BitVec 8) (a a' : Half) (b b' : Data) :
    (op ++ a ++ b : BitVec 48) = op' ++ a' ++ b' ↔ op = op' ∧ a = a' ∧ b = b' := by
  refine ⟨fun h => ⟨?_, ?_, ?_⟩, fun ⟨hop, ha, hb⟩ => by rw [hop, ha, hb]⟩
  · simpa using congrArg opField h
  · simpa using congrArg aField h
  · simpa using congrArg bField h

/-- A word spells the row of an opcode and a format exactly when it has the opcode and its reserved fields are 0. -/
theorem formatRow_spells_iff (m : String) (op : BitVec 8) (f : Format) (w : Command) :
    (formatRow m op f).spells w = true ↔ opField w = op ∧ f.reservedZero (aField w) (bField w) = true := by
  have hop : opField w &&& 0xFF#8 = opField w := BitVec.and_allOnes
  calc (formatRow m op f).spells w = true
      ↔ w &&& (0xFF#8 ++ f.aMask ++ f.bMask : BitVec 48) = op ++ 0#16 ++ 0#24 := beq_iff_eq
    _ ↔ (opField w &&& 0xFF#8) ++ (aField w &&& f.aMask) ++ (bField w &&& f.bMask) = op ++ 0#16 ++ 0#24 := by
      conv_lhs => rw [← fields_append w]
      rw [append_and_append]
    _ ↔ opField w = op ∧ f.reservedZero (aField w) (bField w) = true := by
      rw [append_eq_append_iff, hop, reservedZero_iff_masks]; rfl

/-- Every row of the opcode table is that of an opcode of the opcode map, with the format and the mnemonic the map gives
it (R74). -/
theorem opcodeTable_rows : ∀ row ∈ opcodeTable, ∃ op f, row = formatRow row.mnemonic op f ∧
    ∀ a b, ∃ i, opcodeMap op a b = some (f, i) ∧ i.mnemonic = row.mnemonic := by
  simp only [opcodeTable, List.forall_mem_cons]
  exact
    ⟨⟨0x00, .n, by decide, fun _ _ => ⟨.nop, rfl, rfl⟩⟩,
     ⟨0x01, .a, by decide, fun a _ => ⟨.init a, rfl, rfl⟩⟩,
     ⟨0x02, .a, by decide, fun a _ => ⟨.setnum a, rfl, rfl⟩⟩,
     ⟨0x03, .n, by decide, fun _ _ => ⟨.clear, rfl, rfl⟩⟩,
     ⟨0x04, .a, by decide, fun a _ => ⟨.showFrame a, rfl, rfl⟩⟩,
     ⟨0x05, .ac, by decide, fun a b => ⟨.setrgb a (bRed b) (bGreen b) (bBlue b), rfl, rfl⟩⟩,
     ⟨0x06, .ah, by decide, fun a b => ⟨.setw a (bHalf b), rfl, rfl⟩⟩,
     ⟨0x07, .a, by decide, fun a _ => ⟨.getw a, rfl, rfl⟩⟩,
     ⟨0x08, .ah, by decide, fun a b => ⟨.scale1 a (bHalf b), rfl, rfl⟩⟩,
     ⟨0x09, .h, by decide, fun _ b => ⟨.scaleall (bHalf b), rfl, rfl⟩⟩,
     ⟨0x0A, .c, by decide, fun _ b => ⟨.encodeRgb (bRed b) (bGreen b) (bBlue b), rfl, rfl⟩⟩,
     ⟨0x0B, .a, by decide, fun a _ => ⟨.decodeWord a, rfl, rfl⟩⟩,
     ⟨0x0C, .ah, by decide, fun a b => ⟨.scalew a (bHalf b), rfl, rfl⟩⟩,
     ⟨0x0D, .a, by decide, fun a _ => ⟨.rdcsr a, rfl, rfl⟩⟩,
     ⟨0x0E, .av, by decide, fun a b => ⟨.wrcsr a b, rfl, rfl⟩⟩,
     fun _ h => absurd h List.not_mem_nil⟩

/-- A word that spells a row is decoded, to a command with the row's mnemonic (R74). -/
theorem decode_of_spells {row : OpcodeRow} {w : Command} (hrow : row ∈ opcodeTable) (h : row.spells w = true) :
    ∃ i, decode w = .ok i ∧ i.mnemonic = row.mnemonic := by
  obtain ⟨op, f, heq, hmap⟩ := opcodeTable_rows row hrow
  rw [heq] at h
  obtain ⟨hop, hzero⟩ := (formatRow_spells_iff _ op f w).mp h
  obtain ⟨i, hi, hm⟩ := hmap (aField w) (bField w)
  exact ⟨i, decode_eq_ok_iff_fields.mpr ⟨f, by rw [hop, hi], hzero⟩, hm⟩

/-- Every encoded command spells a row with its mnemonic (R74, R82). -/
theorem encode_spells_row (i : Instr) : Laws.EncodeFitsRow.Statement i := by
  cases i with
  | nop => exact Laws.EncodeFitsRow.nop
  | init n => exact Laws.EncodeFitsRow.init n
  | setnum n => exact Laws.EncodeFitsRow.setnum n
  | clear => exact Laws.EncodeFitsRow.clear
  | showFrame d => exact Laws.EncodeFitsRow.showFrame d
  | setrgb n r g b => exact Laws.EncodeFitsRow.setrgb n r g b
  | setw n w => exact Laws.EncodeFitsRow.setw n w
  | getw n => exact Laws.EncodeFitsRow.getw n
  | scale1 n f => exact Laws.EncodeFitsRow.scale1 n f
  | scaleall f => exact Laws.EncodeFitsRow.scaleall f
  | encodeRgb r g b => exact Laws.EncodeFitsRow.encodeRgb r g b
  | decodeWord w => exact Laws.EncodeFitsRow.decodeWord w
  | scalew w f => exact Laws.EncodeFitsRow.scalew w f
  | rdcsr c => exact Laws.EncodeFitsRow.rdcsr c
  | wrcsr c v => exact Laws.EncodeFitsRow.wrcsr c v

/-- A decoded word spells a row with its command's mnemonic (R74). -/
theorem spells_of_decode {w : Command} {i : Instr} (h : decode w = .ok i) :
    ∃ row ∈ opcodeTable, row.mnemonic = i.mnemonic ∧ row.spells w = true := by
  rw [← encode_of_decode h]
  exact encode_spells_row i

/-- No two rows of the opcode table have the same mnemonic (R74). -/
theorem row_eq_of_mnemonic : ∀ row ∈ opcodeTable, ∀ row' ∈ opcodeTable, row.mnemonic = row'.mnemonic → row = row' := by
  decide

/-- Settles O3: a word that spells a row is decoded to that mnemonic, and a decoded word spells the one row that has its
mnemonic. -/
theorem decoderAgreesWithTheOpcodeTable : Obligations.DecoderAgreesWithTheOpcodeTable := by
  refine fun w => ⟨fun row hrow => ⟨decode_of_spells hrow, ?_⟩, fun row hrow row' hrow' h h' => ?_, ?_, ?_⟩
  · rintro ⟨i, hdec, hm⟩
    obtain ⟨row', hrow', hm', hspells⟩ := spells_of_decode hdec
    rwa [row_eq_of_mnemonic row hrow row' hrow' (hm.symm.trans hm'.symm)]
  · obtain ⟨i, hdec, hm⟩ := decode_of_spells hrow h
    obtain ⟨i', hdec', hm'⟩ := decode_of_spells hrow' h'
    obtain rfl : i = i' := Except.ok.inj (hdec.symm.trans hdec')
    exact row_eq_of_mnemonic row hrow row' hrow' (hm.symm.trans hm')
  · intro hnone
    cases hdec : decode w with
    | error e => exact ⟨e, rfl⟩
    | ok i =>
      obtain ⟨row, hrow, -, hspells⟩ := spells_of_decode hdec
      simp [hnone row hrow] at hspells
  · rintro ⟨e, herr⟩ row hrow
    refine Bool.eq_false_iff.mpr fun hspells => ?_
    obtain ⟨i, hdec, -⟩ := decode_of_spells hrow hspells
    simp [herr] at hdec

end Sys2Proof
end

section
/-! PROOFS. The statements of 30_encoding.md about the ports (R75, R76, R85): a word that spells a command is executed, a
word that spells none is answered with IllegalCommand and changes nothing else, a busy block accepts no word, and the host
takes each response once. -/

namespace Sys2Proof.Machine

/-! ## What an error answer is as numbers (R78, 60_exceptions.md R207) -/

/-- A response word is STATUS times 2^28 plus DATA (R78). -/
theorem response_eq_ofNat (status : BitVec 4) (data : Data) :
    response status data = BitVec.ofNat 32 (status.toNat * 2 ^ 28 + data.toNat) := by
  apply BitVec.eq_of_toNat_eq
  have hs := status.isLt
  have hd := data.isLt
  rw [response, BitVec.toNat_append, BitVec.toNat_append, BitVec.toNat_ofNat,
    ← Nat.shiftLeft_add_eq_or_of_lt hd]
  simp [Nat.shiftLeft_eq]
  omega

/-- An error record is INFO times 16 plus CAUSE (10_state.md R26). -/
theorem errRecord_eq_ofNat (code : BitVec 4) (info : BitVec 20) :
    errRecord code info = BitVec.ofNat 24 (info.toNat * 16 + code.toNat) := by
  apply BitVec.eq_of_toNat_eq
  have hc := code.isLt
  have hi := info.isLt
  rw [errRecord, BitVec.toNat_append, BitVec.toNat_ofNat, ← Nat.shiftLeft_add_eq_or_of_lt hc]
  simp [Nat.shiftLeft_eq]
  omega

/-- Raising an error answers with its code and information value, records it in an ERR without a record, and does nothing
else (60_exceptions.md R207, R209). -/
theorem raiseError_failsWith (e : ErrorCause) (info : BitVec 20) (s : State) :
    failsWith e.code.toNat info.toNat s (raiseError e info s) := by
  have hinfo : (info.setWidth 24).toNat = info.toNat := by
    have := info.isLt
    simp; omega
  refine ⟨?_, fun h0 => ?_, raiseError_err_of_recorded e info, rfl⟩
  · rw [raiseError_rsp, response_eq_ofNat, hinfo]
  · rw [raiseError_err, if_pos h0, errRecord_eq_ofNat]

/-- IllegalCommand has status 4 and the opcode byte as information value (30_encoding.md R75, R76). -/
theorem raiseIllegal_failsWith (op : BitVec 8) (s : State) : failsWith 4 op.toNat s (raiseIllegal op s) := by
  have hop : (op.setWidth 20).toNat = op.toNat := by
    have := op.isLt
    simp; omega
  rw [← hop]
  exact raiseError_failsWith .illegalCommand (op.setWidth 20) s

/-! ## An accepted word (R75, R76, R77) -/

/-- Whatever makes a word illegal, the decoder reports its opcode byte (R75, R76). -/
theorem op_of_decode_error {w : Command} {e : DecodeError} (h : decode w = .error e) : e.op = opField w := by
  unfold decode at h
  split at h
  · cases h; rfl
  · split at h <;> cases h
    rfl

/-- An accepted word that spells no command is answered with IllegalCommand(OP), and nothing else happens (R75, R76). -/
theorem step_of_undecodable {s : State} {w : Command} {waiting : List Command} (hacc : s.accepts w waiting)
    (hno : ∀ i, decode w ≠ .ok i) :
    ∃ t, step s = .next t ∧ failsWith 4 (w.toNat / 2 ^ 40) { s with cmds := waiting } t := by
  obtain ⟨hb, hc, he⟩ := hacc
  cases hd : decode w with
  | ok i => exact absurd hd (hno i)
  | error e =>
    refine ⟨_, step_of_illegal hb hc he hd, ?_⟩
    rw [← opField_toNat w, ← op_of_decode_error hd]
    exact raiseIllegal_failsWith _ _

/-- Settles O5: an accepted word that spells a command is executed. -/
theorem stepRunsTheDecodedCommand : Obligations.StepRunsTheDecodedCommand :=
  fun _ _ _ _ ⟨hb, hc, he⟩ hd => step_of_command hb hc he hd

/-- No command has an opcode from 0x0F up (R74, R75). -/
theorem opcode_lt_reserved (i : Instr) : i.opcode.toNat < 0x0F := by cases i <;> simp [Instr.opcode]

/-- Settles O6: a word with a reserved opcode is that of no command. -/
theorem reservedOpcodeIsIllegal : Obligations.ReservedOpcodeIsIllegal := by
  intro s w waiting hacc hop
  refine step_of_undecodable hacc fun i hd => ?_
  obtain ⟨hopcode, -, -⟩ := fields_of_decode hd
  have hlt := opcode_lt_reserved i
  rw [hopcode, opField_toNat] at hlt
  omega

/-! ## The reserved fields of a command (R72, R76) -/

/-- A is 0 in the commands of formats N, C and H. -/
theorem aOperand_eq_zero {i : Instr} (h : i.opcode.toNat ∈ [0x00, 0x03, 0x09, 0x0A]) : i.aOperand = 0 := by
  cases i <;> simp [Instr.opcode, Instr.aOperand] at h ⊢

/-- B is 0 in the commands of formats N and A. -/
theorem bOperand_eq_zero {i : Instr} (h : i.opcode.toNat ∈ [0x00, 0x01, 0x02, 0x03, 0x04, 0x07, 0x0B, 0x0D]) :
    i.bOperand = 0 := by
  cases i <;> simp [Instr.opcode, Instr.bOperand] at h ⊢

/-- B[23:16] is 0 in the commands of formats H and AH. -/
theorem bHigh_bOperand_eq_zero {i : Instr} (h : i.opcode.toNat ∈ [0x06, 0x08, 0x09, 0x0C]) : bHigh i.bOperand = 0 := by
  cases i <;> simp [Instr.opcode, Instr.bOperand] at h ⊢

/-- Bit 15 of SETW's operand is discarded (41_buffer.md R124). -/
theorem withStartBit_or_startBit (word : Word) : withStartBit (word ||| 0x8000) = withStartBit word := by
  have hmask : (0x8000 : Word) &&& 0x7FFF = 0#16 := by decide
  rw [withStartBit, withStartBit, BitVec.and_or_distrib_right, hmask, BitVec.or_zero]

/-- SETW does the same whatever bit 15 of its operand is (R76, R124). -/
theorem exec_setw_or_startBit (n : Half) (word : Word) (s : State) :
    exec (.setw n (word ||| 0x8000)) s = exec (.setw n word) s := by
  simp only [exec_setw, storeWord, withStartBit_or_startBit]

/-- Settles O7: the word of a command has 0 in the fields that its format reserves. -/
theorem reservedFieldIsIllegal : Obligations.ReservedFieldIsIllegal := by
  refine ⟨fun s w waiting hacc hres => step_of_undecodable hacc fun i hd => ?_, by decide,
    fun n word s => ⟨decode_encode _, exec_setw_or_startBit n word s⟩⟩
  obtain ⟨hopcode, ha, hb⟩ := fields_of_decode hd
  rw [← opField_toNat, ← aField_toNat, ← bField_toNat, ← bHigh_toNat, ← hopcode, ← ha, ← hb] at hres
  rcases hres with ⟨hop, hne⟩ | ⟨hop, hne⟩ | ⟨hop, hne⟩
  · exact hne (congrArg BitVec.toNat (aOperand_eq_zero hop))
  · exact hne (congrArg BitVec.toNat (bOperand_eq_zero hop))
  · exact hne (congrArg BitVec.toNat (bHigh_bOperand_eq_zero hop))

/-! ## The ports of a busy block (R85) -/

/-- A move of an outside agent other than the host's presenting leaves the waiting words as they are (R85). -/
theorem agentMove_cmds {m : EnvMove} {s t : State} (h : agentMove m s = .next t) :
    (∃ w, m = .present w) ∨ t.cmds = s.cmds := by
  rcases agentMove_cases h with ⟨w, hm, -⟩ | ⟨-, rfl⟩ | ⟨fail, -, h⟩ | ⟨-, h⟩ | ⟨a, w, -, -, -, rfl⟩ |
    ⟨a, -, -, -, rfl⟩ | ⟨-, rfl⟩
  · exact .inl ⟨w, hm⟩
  · rcases takeResponse_cases s with ⟨-, ht⟩ | ⟨r, -, ht⟩ <;> rw [ht] <;> exact .inr rfl
  · exact .inr (by rw [transferStep_state h])
  · exact .inr (by rw [delayStep_state h])
  · exact .inr rfl
  · exact .inr rfl
  · exact .inr rfl

/-- A block that is busy or has no word to accept makes the move laid out first (R85, 70_reset_and_hazards.md R242). -/
theorem step_of_move {s : State} {m : EnvMove} {moves : List EnvMove} (hw : s.busy = true ∨ s.cmds = [])
    (he : s.env = m :: moves) : step s = agentMove m { s with env := moves } :=
  calc step s = agentsStep s := hw.elim step_of_busy step_of_no_command
    _ = agentMove m { s with env := moves } := agentsStep_of_move he

/-- Settles O8: a busy block waits or makes the agents' move, and only the host's presenting adds a word. -/
theorem busyBlockAcceptsNoCommand : Obligations.BusyBlockAcceptsNoCommand := by
  refine ⟨fun s t hb hpres ht => ?_, fun s w moves hw he => step_of_move hw he⟩
  cases he : s.env with
  | nil =>
    have hwait : step s = .next s := (step_of_busy hb).trans (by rw [agentsStep, he])
    cases hwait.symm.trans ht
    rfl
  | cons m moves =>
    rcases agentMove_cmds ((step_of_move (.inl hb) he).symm.trans ht) with ⟨w, rfl⟩ | hkeep
    · exact absurd he (hpres w moves)
    · exact hkeep

/-- Settles O10: with a response pending the block is busy, and the hand-over is the move made. -/
theorem responseIsHandedOverOnce : Obligations.ResponseIsHandedOverOnce := by
  intro s r moves hr he
  have hb : s.busy = true := busy_of_rsp (by rw [hr]; rfl)
  calc step s = .next (takeResponse { s with env := moves }) := step_of_move (.inl hb) he
    _ = .next { s with rsp := none, taken := s.taken ++ [r], env := moves } := by rw [takeResponse, hr]

end Sys2Proof.Machine
end

section
/-! PROOFS. The statements of 40_codec.md: the quantizer and the expander as numbers (R100 to R103), the laws of the codec
(R107), and what ENCODE and DECODE answer (R108, R109). -/

namespace Sys2Proof.Machine

/-! ## The quantizer (R100 to R102) -/

/-- quant(v, 0) as a number (R100). -/
theorem quant_false_toNat (v : Channel) : (quant v false).toNat = v.toNat * 31 / 255 := quant_toNat v false

/-- quant(v, 1) as a number (R101). -/
theorem quant_true_toNat (v : Channel) : (quant v true).toNat = (v.toNat * 31 + 127) / 255 := quant_toNat v true

/-- The outputs are in the order of the inputs (R102). -/
theorem quant_mono {v v' : Channel} (m : Bool) (h : v.toNat ≤ v'.toNat) : (quant v m).toNat ≤ (quant v' m).toNat := by
  rw [quant_toNat, quant_toNat]
  exact Nat.div_le_div_right (by omega)

/-- The inputs that truncate to `c` (R102). -/
theorem quant_false_eq_iff (v : Channel) (c : Lane) :
    quant v false = c ↔ c.toNat * 255 ≤ v.toNat * 31 ∧ v.toNat * 31 < c.toNat * 255 + 255 := by
  rw [← BitVec.toNat_inj, quant_false_toNat]
  omega

/-- The inputs whose nearest value is `c` (R102). -/
theorem quant_true_eq_iff (v : Channel) (c : Lane) :
    quant v true = c ↔ c.toNat * 255 ≤ v.toNat * 31 + 127 ∧ v.toNat * 31 + 127 < c.toNat * 255 + 255 := by
  rw [← BitVec.toNat_inj, quant_true_toNat]
  omega

/-- The nearest value is the truncated one or one more (R102). -/
theorem quant_true_near_false (v : Channel) :
    (quant v false).toNat ≤ (quant v true).toNat ∧ (quant v true).toNat ≤ (quant v false).toNat + 1 := by
  rw [quant_false_toNat, quant_true_toNat]
  omega

/-- Only 255 truncates to the top value (R100). -/
theorem quant_false_eq_top_iff (v : Channel) : quant v false = 31 ↔ v = 255 := by
  have hv := v.isLt
  have htop : (31 : Lane).toNat = 31 := rfl
  have hmax : (255 : Channel).toNat = 255 := rfl
  rw [quant_false_eq_iff, ← BitVec.toNat_inj, htop, hmax]
  omega

/-- From 251 up the nearest value is the top one (R101). -/
theorem quant_true_eq_top_iff (v : Channel) : quant v true = 31 ↔ 251 ≤ v.toNat := by
  have hv := v.isLt
  have htop : (31 : Lane).toNat = 31 := rfl
  rw [quant_true_eq_iff, htop]
  omega

/-- Settles O15: the formulas are exact, and the order and the top ranges follow from them. -/
theorem quantizerIsLinearAndMonotone : Obligations.QuantizerIsLinearAndMonotone :=
  ⟨fun v => ⟨quant_false_toNat v, quant_true_toNat v⟩, fun _ _ => quant_mono, quant_true_near_false,
    quant_false_eq_top_iff, quant_true_eq_top_iff⟩

/-! ## The expander against the quantizer (R103, R107) -/

/-- expand(c) is the least number not below c * 255 / 31 (R103). -/
theorem expand_bounds (c : Lane) :
    c.toNat * 255 ≤ (expand c).toNat * 31 ∧ (expand c).toNat * 31 < c.toNat * 255 + 31 := by
  rw [expand_toNat]
  omega

/-- L2 for one channel: rounding up keeps the expanded value in the range of `c` in both modes (R103, R107). -/
@[simp] theorem quant_expand (c : Lane) (m : Bool) : quant (expand c) m = c := by
  obtain ⟨hlow, hhigh⟩ := expand_bounds c
  cases m with
  | false => exact (quant_false_eq_iff _ _).2 ⟨hlow, hhigh.trans_le (Nat.add_le_add_left (by decide) _)⟩
  | true => exact (quant_true_eq_iff _ _).2 ⟨by omega, by omega⟩

/-- L3: how far truncating falls below the input. -/
theorem expand_quant_false_bounds (v : Channel) :
    (expand (quant v false)).toNat ≤ v.toNat ∧ v.toNat ≤ (expand (quant v false)).toNat + 8 := by
  have he := expand_bounds (quant v false)
  have hq := (quant_false_eq_iff v _).1 rfl
  omega

/-- The lanes whose range of R102 reaches 8 above its least input, with that input. -/
theorem expand_add_eight_of_nine_wide : ∀ c : Lane, (expand c).toNat + 8 < 256 →
    ((expand c).toNat + 8) * 31 < c.toNat * 255 + 255 → (expand c).toNat + 8 ∈ [8, 41, 74, 115, 148, 189, 222] := by
  decide

/-- L3: the gap is 8 at the tops of the nine-wide ranges of R102 only. -/
theorem expand_quant_false_gap_eq_eight_iff (v : Channel) :
    v.toNat = (expand (quant v false)).toNat + 8 ↔ v.toNat ∈ [8, 41, 74, 115, 148, 189, 222] := by
  have he := expand_bounds (quant v false)
  have hq := (quant_false_eq_iff v _).1 rfl
  have hlt := v.isLt
  constructor
  · intro hv
    rw [hv]
    exact expand_add_eight_of_nine_wide _ (by omega) (by omega)
  · intro hv
    simp only [List.mem_cons, List.not_mem_nil, or_false] at hv
    omega

/-- L4: how far the nearest value lies from the input. -/
theorem expand_quant_true_bounds (v : Channel) :
    v.toNat ≤ (expand (quant v true)).toNat + 4 ∧ (expand (quant v true)).toNat ≤ v.toNat + 5 := by
  have he := expand_bounds (quant v true)
  have hq := (quant_true_eq_iff v _).1 rfl
  omega

/-! ## The start bit of a pixel word (10_state.md R30, R106) -/

theorem startBit_or_startBit (w : Word) : startBit (w ||| 0x8000) = 1 := by
  have hbit : (0x8000 : Word).extractLsb' 15 1 = BitVec.allOnes 1 := by decide
  rw [startBit, BitVec.extractLsb'_or, hbit, BitVec.or_allOnes]
  rfl

/-- Setting the start bit leaves a field that bit 15 is not in. -/
theorem extractLsb'_or_startBit (w : Word) {k : Nat} (hk : (0x8000 : Word).extractLsb' k 5 = 0#5) :
    (w ||| 0x8000).extractLsb' k 5 = w.extractLsb' k 5 := by
  rw [BitVec.extractLsb'_or, hk, BitVec.or_zero]

theorem green_or_startBit (w : Word) : green (w ||| 0x8000) = green w := extractLsb'_or_startBit w (by decide)
theorem red_or_startBit (w : Word) : red (w ||| 0x8000) = red w := extractLsb'_or_startBit w (by decide)
theorem blue_or_startBit (w : Word) : blue (w ||| 0x8000) = blue w := extractLsb'_or_startBit w (by decide)

/-- The three lanes of a word under a 1 are the word with its start bit set (R30). -/
theorem pack_one_fields (w : Word) : pack 1 (green w) (red w) (blue w) = w ||| 0x8000 := by
  rw [← pack_fields (w ||| 0x8000), startBit_or_startBit, green_or_startBit, red_or_startBit, blue_or_startBit]

/-! ## The codec (R105 to R107) -/

/-- L2 for a whole word: encoding what was decoded sets the start bit and no more. -/
theorem encodePixel_expand_fields (w : Word) (m : Bool) :
    encodePixel (expand (red w)) (expand (green w)) (expand (blue w)) m = w ||| 0x8000 := by
  simp only [encodePixel, quant_expand, pack_one_fields]

/-- L5: a decoded encoding is the expanded quantized channels. -/
theorem decodePixel_encodePixel (r g b : Channel) (m : Bool) :
    decodePixel (encodePixel r g b m) = expand (quant r m) ++ expand (quant g m) ++ expand (quant b m) := by
  simp only [decodePixel, encodePixel, red_pack, green_pack, blue_pack]

/-- decode ignores bit 15 (R106). -/
theorem decodePixel_or_startBit (w : Word) : decodePixel (w ||| 0x8000) = decodePixel w := by
  simp only [decodePixel, red_or_startBit, green_or_startBit, blue_or_startBit]

/-- Settles O16: L2 to L4 are those of one channel between the ranges of the quantizer and the bounds of the expander, L1
and L5 those of the packed word's fields, and L6 is four words read off. -/
theorem codecLawsHold : Obligations.CodecLawsHold :=
  ⟨fun r g b m => getLsbD_of_wireValid (wireValid_encodePixel r g b m), quant_expand, encodePixel_expand_fields,
    fun v => and_assoc.1 ⟨expand_quant_false_bounds v, expand_quant_false_gap_eq_eight_iff v⟩,
    expand_quant_true_bounds, decodePixel_encodePixel, expand_bounds, by decide, by decide, by decide, by decide⟩

/-! ## ENCODE and DECODE (R108, R109) -/

/-- An OK answer is its data as a number, and changes nothing but the response (30_encoding.md R78, R80). -/
theorem respond_eq_ofNat (data : Data) (s : State) :
    respond data s = { s with rsp := some (BitVec.ofNat 32 data.toNat) } := by
  rw [respond, response_zero_eq_ofNat]

/-- MODE.QRND as a number (10_state.md R25). -/
theorem qrnd_toNat (s : State) : s.qrnd.toNat = s.mode.toNat % 2 := by
  rw [State.qrnd, ← BitVec.testBit_toNat, Nat.toNat_testBit, Nat.pow_zero, Nat.div_one]

theorem exec_encodeRgb (r g b : Channel) (s : State) :
    exec (.encodeRgb r g b) s = .next (respond ((encodePixel r g b s.qrnd).setWidth 24) s) := rfl

theorem exec_decodeWord (w : Word) (s : State) : exec (.decodeWord w) s = .next (respond (decodePixel w) s) := rfl

/-- Settles O17: the answer and the encoded word as numbers, MODE.QRND being MODE's remainder by 2. -/
theorem encodeAnswersTheEncodedWord : Obligations.EncodeAnswersTheEncodedWord := by
  intro r g b s
  rw [exec_encodeRgb, respond_eq_ofNat, BitVec.toNat_setWidth_of_le (by decide), encodePixel_toNat, qrnd_toNat]

/-- Settles O18: the answer as a number, and no lane of the word holds bit 15. -/
theorem decodeAnswersTheExpandedChannels : Obligations.DecodeAnswersTheExpandedChannels := by
  intro w s
  constructor
  · rw [exec_decodeWord, respond_eq_ofNat, decodePixel_toNat]
  · rw [exec_decodeWord, exec_decodeWord, decodePixel_or_startBit]

end Sys2Proof.Machine
end

section
/-! PROOFS. The statements of 41_buffer.md: what SETNUM, CLEAR, SETRGB and SETW write and leave (R121 to R124), what GETW
answers (R125), and that GETW reads back what the others stored (R126). -/

namespace Sys2Proof.Machine

/-! ## The start bit as a number (10_state.md R30, 41_buffer.md R124, R125) -/

/-- w & 0x7FFF is the remainder by 2^15 (R125). -/
theorem maskStartBit_toNat (w : Word) : (maskStartBit w).toNat = w.toNat % 32768 := by
  rw [maskStartBit, BitVec.toNat_and]
  exact Nat.and_two_pow_sub_one_eq_mod w.toNat 15

/-- 0x8000 | (w & 0x7FFF) is 2^15 more than that remainder: the two parts share no bit (R124). -/
theorem withStartBit_toNat (w : Word) : (withStartBit w).toNat = 32768 + w.toNat % 32768 := by
  have hlow : w.toNat % 32768 < 2 ^ 15 := Nat.mod_lt _ (by decide)
  rw [withStartBit, ← maskStartBit, BitVec.toNat_or, maskStartBit_toNat]
  exact (Nat.two_pow_add_eq_or_of_lt hlow 1).symm

/-- The word SETW stores, as the spec's number (R124). -/
theorem withStartBit_eq_ofNat (w : Word) : withStartBit w = BitVec.ofNat 16 (32768 + w.toNat % 32768) := by
  rw [← withStartBit_toNat, BitVec.ofNat_toNat, BitVec.setWidth_eq]

/-- The word SETRGB stores, as the spec's number (40_codec.md R105). -/
theorem encodePixel_eq_ofNat (r g b : Channel) (s : State) :
    encodePixel r g b s.qrnd = BitVec.ofNat 16 (Formula.encode r g b (s.mode.toNat % 2)) := by
  rw [← qrnd_toNat, ← encodePixel_toNat, BitVec.ofNat_toNat, BitVec.setWidth_eq]

/-! ## The capacity check (41_buffer.md R121) -/

/-- CapacityViolation has status 2 and the operand as information value (60_exceptions.md R203). -/
theorem raiseCapacityViolation_failsWith (n : Half) (s : State) :
    failsWith 2 n.toNat s (raiseError .capacityViolation (n.setWidth 20) s) := by
  rw [← BitVec.toNat_setWidth_of_le (b := n) (show 16 ≤ 20 by decide)]
  exact raiseError_failsWith .capacityViolation (n.setWidth 20) s

/-- Settles O21: the check either lets the NUMLEDS write through or raises the error. -/
theorem setnumWritesNumledsOnly : Obligations.SetnumWritesNumledsOnly := by
  intro n s
  constructor
  · intro hn
    rw [exec_setnum, withCapacity_access _ hn, respond_eq_ofNat]
    rfl
  · intro hn
    exact ⟨_, (exec_setnum n s).trans (withCapacity_refuses _ hn), raiseCapacityViolation_failsWith n s⟩

/-! ## The writing commands (41_buffer.md R122 to R124) -/

/-- Settles O22: the loop writes exactly the words below NUMLEDS, and BUF only. -/
theorem clearWritesTheOffPixelBelowNumleds : Obligations.ClearWritesTheOffPixelBelowNumleds := by
  intro s hcap
  refine ⟨_, (exec_clear s).trans (withBatch_access _ hcap), fun a ha => ?_, fun a ha => ?_, ?_⟩
  · rw [respond_buf, clearWords_read, if_pos ha]
    rfl
  · rw [respond_buf, clearWords_read, if_neg (Nat.not_lt.mpr ha)]
  · rw [clearWords_state, respond_eq_ofNat]
    rfl

/-- A command that passes its index check and stores one word: that word reads so, the others as before, and nothing but
BUF and the response changes. -/
theorem respond_memWrite_effect (a : Nat) (v : Word) (s : State) :
    Memory.read? (respond 0 (s.memWrite a v)).buf a = some v ∧
    (∀ c, c ≠ a → Memory.read? (respond 0 (s.memWrite a v)).buf c = Memory.read? s.buf c) ∧
    respond 0 (s.memWrite a v) = { s with buf := (respond 0 (s.memWrite a v)).buf, rsp := some 0 } := by
  refine ⟨Memory.read_write_same s.buf a v, fun c hc => Memory.read_write_other s.buf v hc, ?_⟩
  rw [respond_eq_ofNat]
  rfl

/-- Settles O23: the index check passes, and the word stored is the encoded one as a number. -/
theorem setrgbStoresTheEncodedWord : Obligations.SetrgbStoresTheEncodedWord := by
  intro n r g b s hn hcap
  rw [← encodePixel_eq_ofNat]
  exact ⟨_, (exec_setrgb n r g b s).trans (withIndex_access _ hn (by omega)),
    respond_memWrite_effect n.toNat (encodePixel r g b s.qrnd) s⟩

/-- Settles O24: the word that SETW stores does not depend on bit 15 of the operand. -/
theorem setwStoresTheWordWithItsStartBit : Obligations.SetwStoresTheWordWithItsStartBit := by
  intro n word s hn hcap
  rw [exec_setw_or_startBit, ← withStartBit_eq_ofNat]
  have hexec : exec (.setw n word) s = .next (respond 0 (s.memWrite n.toNat (withStartBit word))) :=
    (exec_setw n word s).trans (withIndex_access _ hn (by omega))
  exact ⟨_, hexec, hexec, respond_memWrite_effect n.toNat (withStartBit word) s⟩

/-! ## GETW (41_buffer.md R125, R126) -/

/-- GETW below NUMLEDS answers the word it read without its start bit, in the state its read leaves (R125). -/
theorem exec_getw_access {n : Half} {s : State} (hn : n.toNat < s.numLeds.toNat)
    (hcap : s.numLeds.toNat ≤ s.cap.toNat) :
    exec (.getw n) s = .next { (s.memRead n.toNat).2 with
      rsp := some (BitVec.ofNat 32 ((s.memRead n.toNat).1.toNat % 32768)) } := by
  rw [exec_getw, withIndex_access _ hn (by omega), respond_eq_ofNat, BitVec.toNat_setWidth_of_le (by decide),
    maskStartBit_toNat]

/-- GETW of a written word changes the response only (R125). -/
theorem exec_getw_of_written {n : Half} {s : State} {w : Word} (hn : n.toNat < s.numLeds.toNat)
    (hcap : s.numLeds.toNat ≤ s.cap.toNat) (hw : Memory.read? s.buf n.toNat = some w) :
    exec (.getw n) s = .next { s with rsp := some (BitVec.ofNat 32 (w.toNat % 32768)) } := by
  rw [exec_getw_access hn hcap, memRead_of_written hw]

/-- Settles O25: a read changes the draw counter at most, and gives the written word where there is one. -/
theorem getwAnswersTheWordWithoutItsStartBit : Obligations.GetwAnswersTheWordWithoutItsStartBit := by
  intro n s hn hcap
  refine ⟨(s.memRead n.toNat).1, _, exec_getw_access hn hcap, fun v hv => ?_, ?_⟩
  · rw [memRead_of_written hv]
    exact ⟨rfl, rfl⟩
  · rw [memRead_state]

/-- GETW after a command that changed BUF and the response only, and left `w` at the index. -/
theorem exec_getw_after_store {n : Half} {s t : State} {w : Word} (hn : n.toNat < s.numLeds.toNat)
    (hcap : s.numLeds.toNat ≤ s.cap.toNat) (ht : t = { s with buf := t.buf, rsp := some 0 })
    (hw : Memory.read? t.buf n.toNat = some w) :
    ∃ u, exec (.getw n) t = .next u ∧ u.rsp = some (BitVec.ofNat 32 (w.toNat % 32768)) := by
  have hnum : t.numLeds = s.numLeds := by rw [ht]
  have hc : t.cap = s.cap := by rw [ht]
  exact ⟨_, exec_getw_of_written (hnum ▸ hn) (hnum ▸ hc ▸ hcap) hw, rfl⟩

/-- A number read back from a 16-bit word without bit 15 is its remainder by 2^15. -/
theorem toNat_ofNat_mod_startBit (k : Nat) : (BitVec.ofNat 16 k).toNat % 32768 = k % 32768 := by
  rw [BitVec.toNat_ofNat]
  omega

/-- Settles O26: what each command stores at `n`, read back by GETW. -/
theorem getwReadsBackWhatWasStored : Obligations.GetwReadsBackWhatWasStored := by
  intro n r g b word s hn hcap
  refine ⟨?_, ?_, ?_⟩
  · obtain ⟨t, hexec, hread, -, hframe⟩ := setrgbStoresTheEncodedWord n r g b s hn hcap
    obtain ⟨u, hget, hrsp⟩ := exec_getw_after_store hn hcap hframe hread
    rw [toNat_ofNat_mod_startBit] at hrsp
    exact ⟨t, u, hexec, hget, hrsp⟩
  · obtain ⟨t, hexec, -, hread, -, hframe⟩ := setwStoresTheWordWithItsStartBit n word s hn hcap
    obtain ⟨u, hget, hrsp⟩ := exec_getw_after_store hn hcap hframe hread
    rw [toNat_ofNat_mod_startBit, Nat.add_mod_left, Nat.mod_mod] at hrsp
    exact ⟨t, u, hexec, hget, hrsp⟩
  · obtain ⟨t, hexec, hoff, -, hframe⟩ := clearWritesTheOffPixelBelowNumleds s hcap
    obtain ⟨u, hget, hrsp⟩ := exec_getw_after_store hn hcap hframe (hoff n.toNat hn)
    exact ⟨t, u, hexec, hget, hrsp⟩

end Sys2Proof.Machine
end

section
/-! PROOFS. The statements of 42_scaler.md: the laws of the scaler (R143), what SCALEW answers (R145), what SCALE1 and
SCALEALL write and leave (R146, R147), and that SCALEALL is SCALE1 of every index in turn (R147). -/

namespace Sys2Proof.Machine

/-! ## The lane scaler (R141, R143) -/

/-- sc(c, F, 0) as a number (R141). -/
theorem scaleLane_false_toNat (c : Lane) (f : Half) :
    (scaleLane c f false).toNat = min 31 (c.toNat * f.toNat / 256) := scaleLane_toNat c f false

/-- sc(c, F, 1) as a number (R141). -/
theorem scaleLane_true_toNat (c : Lane) (f : Half) :
    (scaleLane c f true).toNat = min 31 ((c.toNat * f.toNat + 128) / 256) := scaleLane_toNat c f true

/-- S1 for one lane: rounding does not reach the next multiple of 256. -/
@[simp] theorem scaleLane_one (c : Lane) (m : Bool) : scaleLane c 0x0100 m = c := by
  have hc := c.isLt
  have hf : (0x0100 : Half).toNat = 256 := rfl
  apply BitVec.eq_of_toNat_eq
  cases m with
  | false => rw [scaleLane_false_toNat, hf]; omega
  | true => rw [scaleLane_true_toNat, hf]; omega

/-- A product of 0 scales to 0 in both modes. -/
theorem scaleLane_eq_zero {c : Lane} {f : Half} (m : Bool) (h : c.toNat * f.toNat = 0) : scaleLane c f m = 0 := by
  apply BitVec.eq_of_toNat_eq
  rw [scaleLane_toNat, h]
  cases m <;> rfl

/-- S2 for one lane. -/
@[simp] theorem scaleLane_factor_zero (c : Lane) (m : Bool) : scaleLane c 0 m = 0 :=
  scaleLane_eq_zero m (Nat.mul_zero _)

/-- S3: black stays black. -/
@[simp] theorem scaleLane_zero (f : Half) (m : Bool) : scaleLane 0 f m = 0 :=
  scaleLane_eq_zero m (Nat.zero_mul _)

/-- S4: the lane scaler keeps the order of the lane and of the factor. -/
theorem scaleLane_mono {c c' : Lane} {f f' : Half} (m : Bool) (hc : c.toNat ≤ c'.toNat) (hf : f.toNat ≤ f'.toNat) :
    (scaleLane c f m).toNat ≤ (scaleLane c' f' m).toNat := by
  have hproduct : c.toNat * f.toNat ≤ c'.toNat * f'.toNat := Nat.mul_le_mul hc hf
  rw [scaleLane_toNat, scaleLane_toNat]
  exact min_le_min_left 31 (Nat.div_le_div_right (Nat.add_le_add_right hproduct _))

/-- S5: rounding adds 0 or 1 to the truncated value. -/
theorem scaleLane_true_near_false (c : Lane) (f : Half) :
    (scaleLane c f false).toNat ≤ (scaleLane c f true).toNat ∧
    (scaleLane c f true).toNat ≤ (scaleLane c f false).toNat + 1 := by
  rw [scaleLane_false_toNat, scaleLane_true_toNat]
  omega

/-- S6, truncating: the products that saturate are those from 31 * 256 on. -/
theorem scaleLane_false_eq_top_iff (c : Lane) (f : Half) : scaleLane c f false = 31 ↔ 7936 ≤ c.toNat * f.toNat := by
  have htop : (31 : Lane).toNat = 31 := rfl
  rw [← BitVec.toNat_inj, scaleLane_false_toNat, htop]
  omega

/-- S6, rounding: 128 less is enough. -/
theorem scaleLane_true_eq_top_iff (c : Lane) (f : Half) : scaleLane c f true = 31 ↔ 7808 ≤ c.toNat * f.toNat := by
  have htop : (31 : Lane).toNat = 31 := rfl
  rw [← BitVec.toNat_inj, scaleLane_true_toNat, htop]
  omega

/-! ## The word scaler (R142, R143) -/

/-- S1 for a whole word: the factor 0x0100 sets the start bit and no more. -/
theorem scaleWord_one (w : Word) (m : Bool) : scaleWord w 0x0100 m = w ||| 0x8000 := by
  simp only [scaleWord, scaleLane_one, pack_one_fields]

/-- S2 for a whole word: the factor 0 gives the all-off pixel. -/
theorem scaleWord_factor_zero (w : Word) (m : Bool) : scaleWord w 0 m = 0x8000 := by
  simp only [scaleWord, scaleLane_factor_zero]
  rfl

/-- S7: at half brightness, truncating, the lanes 0 and 1 fall together. -/
theorem scaleWord_not_injective :
    (0 : Word) ||| 0x8000 ≠ 1 ||| 0x8000 ∧ scaleWord 0 0x0080 false = scaleWord 1 0x0080 false := by decide

/-- scale ignores bit 15 of the word (R142). -/
theorem scaleWord_or_startBit (w : Word) (f : Half) (m : Bool) : scaleWord (w ||| 0x8000) f m = scaleWord w f m := by
  simp only [scaleWord, green_or_startBit, red_or_startBit, blue_or_startBit]

/-- Settles O27: S1 to S6 are those of one lane by its formula, S7 is two words at half brightness, and S8 is that a
scaled word is wire-valid. -/
theorem scalerLawsHold : Obligations.ScalerLawsHold :=
  ⟨scaleLane_one, scaleWord_one, scaleLane_factor_zero, scaleWord_factor_zero, scaleLane_zero,
    fun _ _ _ _ m => scaleLane_mono m, scaleLane_true_near_false,
    fun c f => ⟨(scaleLane_false_eq_top_iff c f).2, (scaleLane_true_eq_top_iff c f).2⟩,
    ⟨⟨0, 1, 0x0080, false, scaleWord_not_injective⟩, by decide, by decide⟩,
    fun w f m => getLsbD_of_wireValid (wireValid_scaleWord w f m)⟩

/-! ## SCALEW (R145) -/

/-- MODE.SRND as a number: the upper of MODE's two bits (10_state.md R25). -/
theorem srnd_toNat (s : State) : s.srnd.toNat = s.mode.toNat / 2 := by
  have hmode := s.mode.isLt
  rw [State.srnd, ← BitVec.testBit_toNat, Nat.toNat_testBit, Nat.pow_one]
  exact Nat.mod_eq_of_lt (by omega)

/-- The scaled word under MODE.SRND, as the spec's number (R142). -/
theorem scaleWord_eq_ofNat (w : Word) (f : Half) (s : State) :
    scaleWord w f s.srnd = BitVec.ofNat 16 (Formula.scale w f (s.mode.toNat / 2)) := by
  rw [← srnd_toNat, ← scaleWord_toNat, BitVec.ofNat_toNat, BitVec.setWidth_eq]

theorem exec_scalew (w : Word) (f : Half) (s : State) :
    exec (.scalew w f) s = .next (respond ((scaleWord w f s.srnd).setWidth 24) s) := rfl

/-- Settles O28: the answer and the scaled word as numbers, and no lane of the word holds bit 15. -/
theorem scalewAnswersTheScaledWord : Obligations.ScalewAnswersTheScaledWord := by
  intro w f s
  constructor
  · rw [exec_scalew, respond_eq_ofNat, BitVec.toNat_setWidth_of_le (by decide), scaleWord_toNat, srnd_toNat]
  · rw [exec_scalew, exec_scalew, scaleWord_or_startBit]

/-! ## SCALE1 and SCALEALL (R146, R147) -/

/-- SCALE1 below NUMLEDS passes its index check, and its address exists (R146). -/
theorem exec_scale1_access {n : Half} (f : Half) {s : State} (hn : n.toNat < s.numLeds.toNat)
    (hcap : s.numLeds.toNat ≤ s.cap.toNat) : exec (.scale1 n f) s = .next (respond 0 (scaleOne n f s)) :=
  (exec_scale1 n f s).trans (withIndex_access _ hn (by omega))

/-- SCALEALL with NUMLEDS <= C rewrites its words (R147). -/
theorem exec_scaleall_access (f : Half) {s : State} (hcap : s.numLeds.toNat ≤ s.cap.toNat) :
    exec (.scaleall f) s = .next (respond 0 (scaleWords s.numLeds.toNat f s)) :=
  (exec_scaleall f s).trans (withBatch_access _ hcap)

/-- SCALE1 changes BUF and the draw counter only (R146). -/
theorem scaleOne_state (n f : Half) (s : State) :
    scaleOne n f s = { s with buf := (scaleOne n f s).buf, draws := (scaleOne n f s).draws } :=
  updateWord_state _ n.toNat s

/-- SCALE1 stores the scaling of the word it read (R146). -/
theorem scaleOne_read_same (n f : Half) (s : State) :
    Memory.read? (scaleOne n f s).buf n.toNat = some (scaleWord (s.memRead n.toNat).1 f s.srnd) :=
  updateWord_read_same _ n.toNat s

/-- SCALE1 leaves every other word (R146). -/
theorem scaleOne_read_other {n : Half} (f : Half) (s : State) {a : Nat} (h : a ≠ n.toNat) :
    Memory.read? (scaleOne n f s).buf a = Memory.read? s.buf a := updateWord_read_other _ s h

/-- SCALE1 of a written word moves no draw counter (log entry 2). -/
theorem scaleOne_draws_of_written {n : Half} (f : Half) {s : State} {v : Word}
    (h : Memory.read? s.buf n.toNat = some v) : (scaleOne n f s).draws = s.draws := by
  rw [scaleOne, updateWord, memRead_of_written h, memWrite_draws]

/-- Settles O29: the word read is the written one where there is one, and its scaling is the spec's number. -/
theorem scaleOneRewritesTheWord : Obligations.ScaleOneRewritesTheWord := by
  intro n f s hn hcap
  refine ⟨(s.memRead n.toNat).1, _, exec_scale1_access f hn hcap, fun v hv => ?_, ?_, fun a ha => ?_, ?_⟩
  · exact ⟨memRead_word hv, scaleOne_draws_of_written f hv⟩
  · rw [respond_buf, scaleOne_read_same, scaleWord_eq_ofNat]
  · rw [respond_buf, scaleOne_read_other f s ha]
  · rw [scaleOne_state, respond_eq_ofNat]
    rfl

/-- SCALEALL stores in each of the first `n` words the scaling of one word: of the one written there, where one is. -/
theorem scaleWords_read_inside (f : Half) (s : State) {n a : Nat} (h : a < n) :
    ∃ w, (∀ v, Memory.read? s.buf a = some v → w = v) ∧
      Memory.read? (scaleWords n f s).buf a = some (scaleWord w f s.srnd) :=
  updateFrom_read_inside (fun w => scaleWord w f s.srnd) s (by omega)

/-- SCALEALL leaves every word from `n` up. -/
theorem scaleWords_read_outside (f : Half) (s : State) {n a : Nat} (h : n ≤ a) :
    Memory.read? (scaleWords n f s).buf a = Memory.read? s.buf a := updateFrom_read_outside _ s (by omega)

/-- Settles O30: the loop rewrites exactly the words below NUMLEDS, each from the word written there where one is. -/
theorem scaleAllRewritesTheWordsBelowNumleds : Obligations.ScaleAllRewritesTheWordsBelowNumleds := by
  intro f s hcap
  refine ⟨_, exec_scaleall_access f hcap, fun a ha => ?_, fun a ha => ?_, ?_⟩
  · obtain ⟨w, hw, hread⟩ := scaleWords_read_inside f s ha
    exact ⟨w, hw, by rw [respond_buf, hread, scaleWord_eq_ofNat]⟩
  · rw [respond_buf, scaleWords_read_outside f s ha]
  · rw [scaleWords_state, respond_eq_ofNat]
    rfl

/-! ## SCALEALL as SCALE1 of every index (R147) -/

/-- A later response replaces an earlier one. -/
@[simp] theorem respond_respond (d d' : Data) (s : State) : respond d (respond d' s) = respond d s := rfl

/-- Rewriting a word neither reads nor changes the pending response. -/
theorem updateWord_respond (g : Word → Word) (i : Nat) (d : Data) (s : State) :
    updateWord g i (respond d s) = respond d (updateWord g i s) := by
  rcases hread : Memory.read? s.buf i with _ | v
  · rw [updateWord, updateWord, memRead_of_neverWritten hread, memRead_of_neverWritten (s := respond d s) hread]
    rfl
  · rw [updateWord, updateWord, memRead_of_written hread, memRead_of_written (s := respond d s) hread]
    rfl

/-- Nor does the loop. -/
theorem updateFrom_respond (g : Word → Word) (n i : Nat) (d : Data) (s : State) :
    updateFrom g n i (respond d s) = respond d (updateFrom g n i s) := by
  induction n generalizing i s with
  | zero => rfl
  | succ n ih => rw [updateFrom, updateWord_respond, ih, updateFrom]

@[simp] theorem scaleOne_cap (n f : Half) (s : State) : (scaleOne n f s).cap = s.cap := by rw [scaleOne_state]

/-- Neither SCALE1 nor its response changes MODE.SRND. -/
theorem respond_scaleOne_srnd (d : Data) (n f : Half) (s : State) : (respond d (scaleOne n f s)).srnd = s.srnd := by
  rw [scaleOne_state]
  rfl

/-- SCALE1 of a range of indexes, one command after the other, is the loop over that range, the response aside. -/
theorem scaleOneByOne_eq_updateFrom (f : Half) {k i : Nat} {s : State} (hi : i + k ≤ s.numLeds.toNat)
    (hcap : s.numLeds.toNat ≤ s.cap.toNat) :
    ∃ t, scaleOneByOne f k i s = .next t ∧
      respond 0 t = respond 0 (updateFrom (fun w => scaleWord w f s.srnd) k i s) := by
  induction k generalizing i s with
  | zero => exact ⟨s, rfl, rfl⟩
  | succ k ih =>
    have hindex : (BitVec.ofNat 16 i).toNat = i := Nat.mod_eq_of_lt (by have := s.numLeds.isLt; omega)
    have hexec := exec_scale1_access (n := BitVec.ofNat 16 i) f (by omega) hcap
    obtain ⟨t, hrun, hstate⟩ := ih (i := i + 1) (s := respond 0 (scaleOne (BitVec.ofNat 16 i) f s))
      (by simp only [respond_numLeds, scaleOne_numLeds]; omega) (by simpa using hcap)
    refine ⟨t, by rw [scaleOneByOne, hexec]; exact hrun, ?_⟩
    rw [hstate, respond_scaleOne_srnd, updateFrom_respond, respond_respond, scaleOne, hindex, updateFrom]

/-- Settles O31: the commands one after the other are the loop from 0, and the last response is the only one. -/
theorem scaleAllEqualsScaleOneOfEveryIndex : Obligations.ScaleAllEqualsScaleOneOfEveryIndex := by
  intro f s hcap
  obtain ⟨t, hrun, hstate⟩ := scaleOneByOne_eq_updateFrom f (k := s.numLeds.toNat) (i := 0) (by omega) hcap
  refine ⟨t, hrun, ?_⟩
  rw [exec_scaleall_access f hcap, scaleWords, ← hstate, respond_eq_ofNat]
  rfl

end Sys2Proof.Machine
end

section
/-! PROOFS. The statements of 43_serializer.md about single steps of a frame: SHOW starts it (R164), the rows of the
sequencer's table (R163, R167), what the ports offer against what the wire trace records (R160, R161, R169), and a frame
that nobody answers (R170). -/

namespace Sys2Proof.Machine

/-! ## The ports, phase by phase (R160, R161) -/

theorem txPort_of_pix {s : State} (hp : s.seq.phase = .pix) : s.txPort = some (s.memRead s.seq.idx.toNat).1 := by
  simp [State.txPort, hp]

/-- In the header the word offered is 0 (R163). -/
theorem txPort_of_header {s : State} (hp : s.seq.phase = .rst0 ∨ s.seq.phase = .rst1) : s.txPort = some 0 := by
  rcases hp with hp | hp <;> simp [State.txPort, hp]

theorem txPort_eq_none_iff (s : State) : s.txPort = none ↔ s.seq.phase = .idle ∨ s.seq.phase = .wait := by
  cases hp : s.seq.phase <;> simp [State.txPort, hp]

theorem dlyPort_of_wait {s : State} (hp : s.seq.phase = .wait) : s.dlyPort = some s.seq.dly := by
  simp [State.dlyPort, hp]

theorem dlyPort_eq_none_iff (s : State) : s.dlyPort = none ↔ s.seq.phase ≠ .wait := by
  cases hp : s.seq.phase <;> simp [State.dlyPort, hp]

/-- What the transport port offers does not depend on the coming moves of the agents. -/
theorem txPort_withEnv (s : State) (moves : List EnvMove) : ({ s with env := moves } : State).txPort = s.txPort :=
  txPort_congr rfl rfl rfl

/-- What the delay port offers depends on SEQ only (R161). -/
theorem dlyPort_congr {s t : State} (hq : t.seq = s.seq) : t.dlyPort = s.dlyPort := by
  simp only [State.dlyPort, hq]

/-! ## The end of a frame, the end of a pixel (R163) -/

/-- A frame that finishes answers OK, and of SEQ only PHASE changes. -/
theorem finishFrame_state (s : State) : finishFrame s = { s.withPhase .idle with rsp := some 0 } := by
  rw [finishFrame, respond_eq_ofNat]
  rfl

theorem advanceFrame_of_last {s : State} (h : s.seq.idx.toNat + 1 = s.numLeds.toNat) :
    advanceFrame s = finishFrame s := if_pos h

theorem advanceFrame_of_more {s : State} (h : s.seq.idx.toNat + 1 ≠ s.numLeds.toNat) :
    advanceFrame s = { s with seq := { s.seq with idx := s.seq.idx + 1, phase := .pix } } := if_neg h

/-- PIX and WAIT advance alike. -/
theorem advanceFrame_withPhase (p : Phase) (s : State) : advanceFrame (s.withPhase p) = advanceFrame s := by
  by_cases h : s.seq.idx.toNat + 1 = s.numLeds.toNat
  · rw [advanceFrame_of_last h, advanceFrame_of_last (s := s.withPhase p) h]
    rfl
  · rw [advanceFrame_of_more h, advanceFrame_of_more (s := s.withPhase p) h]
    rfl

theorem afterPixel_of_delay {s : State} (h : s.seq.dly ≠ 0) : afterPixel s = s.withPhase .wait := if_neg h

theorem afterPixel_of_no_delay {s : State} (h : s.seq.dly = 0) : afterPixel s = advanceFrame s := if_pos h

theorem afterHeader_of_empty {s : State} (h : s.numLeds = 0) : afterHeader s = finishFrame s := if_pos h

theorem afterHeader_of_pixels {s : State} (h : s.numLeds ≠ 0) :
    afterHeader s = { s with seq := { s.seq with idx := 0, phase := .pix } } := if_neg h

@[simp] theorem failedWord_wire (w : Word) (s : State) : (failedWord w s).wire = s.wire ++ [.fail w] := rfl

@[simp] theorem failedWord_seq (w : Word) (s : State) : (failedWord w s).seq = { s.seq with phase := .idle } := rfl

@[simp] theorem advanceFrame_wire (s : State) : (advanceFrame s).wire = s.wire := by rw [advanceFrame_state]

@[simp] theorem afterHeader_wire (s : State) : (afterHeader s).wire = s.wire := by rw [afterHeader_state]

@[simp] theorem afterPixel_wire (s : State) : (afterPixel s).wire = s.wire := by rw [afterPixel_state]

/-- A failed transfer is answered with TransportFailure(CNT), beside the word on the wire and PHASE (R167, R204). -/
theorem failedWord_failsWith (w : Word) (s : State) :
    failsWith 3 s.seq.cnt.toNat ((s.record (.fail w)).withPhase .idle) (failedWord w s) :=
  raiseError_failsWith .transportFailure s.seq.cnt _

/-! ## A move of the transport or of the delay primitive (R160, R161, R163) -/

/-- In the header a failed transfer is one of the word 0. -/
theorem transferStep_header_failed {s : State} (hp : s.seq.phase = .rst0 ∨ s.seq.phase = .rst1) :
    transferStep true s = .next (failedWord 0 s) := by
  rcases hp with hp | hp <;> simp [transferStep, hp]

theorem transferStep_rst0_sent {s : State} (hp : s.seq.phase = .rst0) :
    transferStep false s = .next ((sentWord 0 s).withPhase .rst1) := by
  simp [transferStep, hp]

theorem transferStep_rst1_sent {s : State} (hp : s.seq.phase = .rst1) :
    transferStep false s = .next (afterHeader (sentWord 0 s)) := by
  simp [transferStep, hp]

/-- In PIX the word of BUF at IDX is read at the hand-over, any word where nothing has written one (R59, R62, R169). -/
theorem transferStep_pix {s : State} (fail : Bool) (hp : s.seq.phase = .pix) (hidx : s.seq.idx.toNat < s.cap.toNat) :
    ∃ w draws, (∀ v, Memory.read? s.buf s.seq.idx.toNat = some v → w = v) ∧
      transferStep fail s = .next (if fail then failedWord w { s with draws := draws }
        else afterPixel (sentWord w { s with draws := draws })) := by
  refine ⟨(s.memRead s.seq.idx.toNat).1, (s.memRead s.seq.idx.toNat).2.draws, fun v hv => memRead_word hv, ?_⟩
  rw [← memRead_state]
  simp [transferStep, hp, State.addressable, hidx]

/-- With no word offered there is no hand-over (R160). -/
theorem transferStep_of_no_offer {s : State} (fail : Bool) (h : s.txPort = none) : transferStep fail s = .next s := by
  rcases (txPort_eq_none_iff s).mp h with hp | hp <;> simp [transferStep, hp]

/-- A transport move answers where the pixel's address exists (20_memory.md R56). -/
theorem transferStep_answers {s : State} (fail : Bool) (h : s.seq.phase = .pix → s.seq.idx.toNat < s.cap.toNat) :
    ∃ t, transferStep fail s = .next t := by
  cases hp : s.seq.phase with
  | pix =>
    obtain ⟨w, draws, -, ht⟩ := transferStep_pix fail hp (h hp)
    exact ⟨_, ht⟩
  | _ => simp [transferStep, hp]

/-- A transport move records the word offered, or nothing is offered and nothing happens (R160). -/
theorem transferStep_wire {fail : Bool} {s t : State} (h : transferStep fail s = .next t) :
    (s.txPort = none ∧ t = s) ∨
    (∃ w, s.txPort = some w ∧ t.wire = s.wire ++ [if fail then .fail w else .word w]) := by
  rcases transferStep_cases h with ⟨hp, rfl⟩ | ⟨hp, rfl, rfl⟩ | ⟨hp, rfl, rfl⟩ | ⟨hp, rfl, rfl⟩ | ⟨hp, -, rfl⟩
  · exact .inl ⟨(txPort_eq_none_iff _).mpr hp, rfl⟩
  · exact .inr ⟨0, txPort_of_header hp, rfl⟩
  · exact .inr ⟨0, txPort_of_header (.inl hp), rfl⟩
  · exact .inr ⟨0, txPort_of_header (.inr hp), by simp⟩
  · exact .inr ⟨_, txPort_of_pix hp, by cases fail <;> simp⟩

theorem delayStep_of_wait {s : State} (hp : s.seq.phase = .wait) :
    delayStep s = .next (advanceFrame (s.record (.delay s.seq.dly))) := by
  simp [delayStep, hp]

/-- A delay move records the delay asked for, or none is asked for and nothing happens (R161). -/
theorem delayStep_wire {s t : State} (h : delayStep s = .next t) :
    (s.dlyPort = none ∧ t = s) ∨ (∃ d, s.dlyPort = some d ∧ t.wire = s.wire ++ [.delay d]) := by
  rcases delayStep_cases h with ⟨hp, rfl⟩ | ⟨hp, rfl⟩
  · exact .inl ⟨(dlyPort_eq_none_iff _).mpr hp, rfl⟩
  · exact .inr ⟨_, dlyPort_of_wait hp, by simp⟩

/-! ## A step during a frame -/

/-- A block with a frame in progress is busy (10_state.md R28). -/
theorem busy_of_frame {s : State} (h : s.seq.phase ≠ .idle) : s.busy = true := by simp [State.busy, h]

/-- During a frame the step is the move laid out first (R168). -/
theorem step_of_frame {s : State} {m : EnvMove} {moves : List EnvMove} (hp : s.seq.phase ≠ .idle)
    (he : s.env = m :: moves) : step s = agentMove m { s with env := moves } :=
  step_of_move (.inl (busy_of_frame hp)) he

/-- With no move laid out the block waits (R170). -/
theorem step_of_waiting {s : State} (hp : s.seq.phase ≠ .idle) (he : s.env = []) : step s = .next s := by
  rw [step_of_busy (busy_of_frame hp), agentsStep, he]

theorem step_rst0_sent {s : State} {moves : List EnvMove} (hp : s.seq.phase = .rst0)
    (he : s.env = .transport false :: moves) :
    step s = .next ((sentWord 0 { s with env := moves }).withPhase .rst1) :=
  (step_of_frame (by simp [hp]) he).trans (transferStep_rst0_sent hp)

theorem step_rst1_sent {s : State} {moves : List EnvMove} (hp : s.seq.phase = .rst1)
    (he : s.env = .transport false :: moves) :
    step s = .next (afterHeader (sentWord 0 { s with env := moves })) :=
  (step_of_frame (by simp [hp]) he).trans (transferStep_rst1_sent hp)

theorem step_pix_sent {s : State} {moves : List EnvMove} (hp : s.seq.phase = .pix)
    (hidx : s.seq.idx.toNat < s.cap.toNat) (he : s.env = .transport false :: moves) :
    ∃ w draws, (∀ v, Memory.read? s.buf s.seq.idx.toNat = some v → w = v) ∧
      step s = .next (afterPixel (sentWord w { s with env := moves, draws := draws })) := by
  obtain ⟨w, draws, hw, ht⟩ := transferStep_pix (s := { s with env := moves }) false hp hidx
  exact ⟨w, draws, hw, (step_of_frame (by simp [hp]) he).trans ht⟩

theorem step_wait_over {s : State} {moves : List EnvMove} (hp : s.seq.phase = .wait)
    (he : s.env = .delayOver :: moves) :
    step s = .next (advanceFrame (({ s with env := moves } : State).record (.delay s.seq.dly))) :=
  (step_of_frame (by simp [hp]) he).trans (delayStep_of_wait (s := { s with env := moves }) hp)

theorem step_header_failed {s : State} {moves : List EnvMove} (hp : s.seq.phase = .rst0 ∨ s.seq.phase = .rst1)
    (he : s.env = .transport true :: moves) : step s = .next (failedWord 0 { s with env := moves }) :=
  (step_of_frame (by rcases hp with hp | hp <;> simp [hp]) he).trans (transferStep_header_failed hp)

theorem step_pix_failed {s : State} {moves : List EnvMove} (hp : s.seq.phase = .pix)
    (hidx : s.seq.idx.toNat < s.cap.toNat) (he : s.env = .transport true :: moves) :
    ∃ w draws, (∀ v, Memory.read? s.buf s.seq.idx.toNat = some v → w = v) ∧
      step s = .next (failedWord w { s with env := moves, draws := draws }) := by
  obtain ⟨w, draws, hw, ht⟩ := transferStep_pix (s := { s with env := moves }) true hp hidx
  exact ⟨w, draws, hw, (step_of_frame (by simp [hp]) he).trans ht⟩

/-! ## The statements -/

/-- Settles O32: SHOW is `startFrame`. -/
theorem showStartsTheFrame : Obligations.ShowStartsTheFrame := fun _ _ => rfl

/-- Settles O33, a clause per row; in PIX by whether a delay was asked for and whether the pixel is the last. -/
theorem sequencerSendsAndAdvances : Obligations.SequencerSendsAndAdvances := by
  intro s moves he
  refine ⟨fun hp => step_rst0_sent hp he, fun hp hn => ?_, fun hp hn => ?_, fun hp hidx => ?_⟩
  · refine ⟨_, step_rst1_sent hp he, ?_⟩
    rw [afterHeader_of_empty (by exact hn), finishFrame_state]
    exact ⟨rfl, rfl⟩
  · rw [step_rst1_sent hp he, afterHeader_of_pixels (by exact hn)]
    rfl
  · obtain ⟨w, draws, hw, hstep⟩ := step_pix_sent hp hidx he
    refine ⟨w, _, hw, hstep, by rw [afterPixel_state]; rfl, fun hd => ?_, fun hd hlast => ?_, fun hd hmore => ?_⟩
    · rw [afterPixel_of_delay (by exact hd)]
      exact ⟨rfl, rfl⟩
    · rw [afterPixel_of_no_delay (by exact hd), advanceFrame_of_last (by exact hlast), finishFrame_state]
      exact ⟨rfl, rfl⟩
    · rw [afterPixel_of_no_delay (by exact hd), advanceFrame_of_more (by exact hmore), ← hp]
      exact ⟨rfl, rfl⟩

/-- Settles O34: the delay is recorded, then the sequencer advances. -/
theorem sequencerDelaysAndAdvances : Obligations.SequencerDelaysAndAdvances := by
  intro s moves he hp
  refine ⟨fun hlast => ⟨_, step_wait_over hp he, ?_⟩, fun hmore => ?_⟩
  · rw [advanceFrame_of_last (by exact hlast), finishFrame_state]
    exact ⟨rfl, rfl⟩
  · rw [step_wait_over hp he, advanceFrame_of_more (by exact hmore)]
    rfl

/-- Settles O35: header and pixel differ in the failed word only. -/
theorem failedTransferAbortsTheFrame : Obligations.FailedTransferAbortsTheFrame := by
  intro s moves he hp
  rcases or_assoc.mpr hp with hp | ⟨hp, hidx⟩
  · have hne : s.seq.phase ≠ .pix := by rcases hp with hp | hp <;> simp [hp]
    exact ⟨0, _, _, step_header_failed hp he, fun _ => rfl, fun h => absurd h hne, rfl, rfl, failedWord_failsWith 0 _⟩
  · obtain ⟨w, draws, hw, hstep⟩ := step_pix_failed hp hidx he
    exact ⟨w, _, _, hstep, fun h => absurd hp h, fun _ => hw, rfl, rfl, failedWord_failsWith w _⟩

/-- Settles O38: a block with a frame in progress is busy. -/
theorem unansweredFrameWaits : Obligations.UnansweredFrameWaits :=
  fun s hp he => ⟨step_of_waiting hp he, by simp [State.final, busy_of_frame hp]⟩

/-- A move of an outside agent records one event at most, and only while a frame is in progress (R169). -/
theorem agentMove_wire {m : EnvMove} {s t : State} (h : agentMove m s = .next t) :
    t.wire = s.wire ∨ (s.seq.phase ≠ .idle ∧ ∃ e, t.wire = s.wire ++ [e]) := by
  rcases agentMove_cases h with ⟨w, -, rfl⟩ | ⟨-, rfl⟩ | ⟨fail, -, h⟩ | ⟨-, h⟩ | ⟨a, w, -, -, -, rfl⟩ |
    ⟨a, -, -, -, rfl⟩ | ⟨-, rfl⟩
  · exact .inl rfl
  · rcases takeResponse_cases s with ⟨-, ht⟩ | ⟨r, -, ht⟩ <;> rw [ht] <;> exact .inl rfl
  · rcases transferStep_wire h with ⟨-, rfl⟩ | ⟨w, hw, hwire⟩
    · exact .inl rfl
    · refine .inr ⟨fun hp => ?_, _, hwire⟩
      cases ((txPort_eq_none_iff s).mpr (.inl hp)).symm.trans hw
  · rcases delayStep_wire h with ⟨-, rfl⟩ | ⟨d, hd, hwire⟩
    · exact .inl rfl
    · refine .inr ⟨fun hp => ?_, _, hwire⟩
      cases ((dlyPort_eq_none_iff s).mpr (by simp [hp])).symm.trans hd
  · exact .inl rfl
  · exact .inl rfl
  · exact .inl rfl

/-- Settles O39: of everything a step can be, only a move of an outside agent records an event. -/
theorem wireGrowsOnlyDuringAFrame : Obligations.WireGrowsOnlyDuringAFrame := by
  intro s t ht
  rcases step_cases ht with ⟨w, waiting, i, -, -, he⟩ | ⟨w, waiting, e, -, -, rfl⟩ |
    ⟨w, waiting, k, moves, -, -, -, rfl⟩ | ⟨-, -, rfl⟩ | ⟨m, moves, -, -, hm⟩
  · exact .inl (by rw [exec_state he])
  · exact .inl rfl
  · exact .inl (by rw [abandonCommand_state]; rfl)
  · exact .inl rfl
  · exact agentMove_wire (s := { s with env := moves }) hm

/-- During a frame a move that records nothing and is no reset leaves what both ports offer (R160, R161). -/
theorem agentMove_ports {m : EnvMove} {s t : State} (hp : s.seq.phase ≠ .idle) (h : agentMove m s = .next t)
    (hwire : t.wire = s.wire) (hrst : m ≠ .rst) (hdur : ∀ k, m ≠ .rstDuring k) :
    t.txPort = s.txPort ∧ t.dlyPort = s.dlyPort := by
  rcases agentMove_cases h with ⟨w, -, rfl⟩ | ⟨-, rfl⟩ | ⟨fail, -, h⟩ | ⟨-, h⟩ | ⟨a, w, -, hb, -, -⟩ |
    ⟨a, -, -, -, rfl⟩ | ⟨rfl | ⟨k, rfl⟩, -⟩
  · exact ⟨txPort_congr rfl rfl rfl, dlyPort_congr rfl⟩
  · rcases takeResponse_cases s with ⟨-, ht⟩ | ⟨r, -, ht⟩ <;> rw [ht] <;>
      exact ⟨txPort_congr rfl rfl rfl, dlyPort_congr rfl⟩
  · rcases transferStep_wire h with ⟨-, rfl⟩ | ⟨w, -, hgrown⟩
    · exact ⟨rfl, rfl⟩
    · simp [hgrown] at hwire
  · rcases delayStep_wire h with ⟨-, rfl⟩ | ⟨d, -, hgrown⟩
    · exact ⟨rfl, rfl⟩
    · simp [hgrown] at hwire
  · exact absurd ((busy_of_frame hp).symm.trans hb) (by decide)
  · exact ⟨rfl, rfl⟩
  · exact absurd rfl hrst
  · exact absurd rfl (hdur k)

/-- Settles O59: a hand-over records what the port offers, and nothing else during a frame changes what is offered. -/
theorem portsOfferWhatIsRecorded : Obligations.PortsOfferWhatIsRecorded := by
  refine ⟨fun s fail moves w he hw hidx => ?_, fun s moves d he hd => ?_,
    fun s fail moves hb => ⟨fun he hw => ?_, fun he hd => ?_⟩,
    fun s hp => ⟨(txPort_eq_none_iff s).mpr (.inl hp), (dlyPort_eq_none_iff s).mpr (by simp [hp])⟩,
    fun s t hp ht hwire hrst hdur => ?_⟩
  · have hp : s.seq.phase ≠ .idle := fun hp => by cases ((txPort_eq_none_iff s).mpr (.inl hp)).symm.trans hw
    have hport := (txPort_withEnv s moves).trans hw
    obtain ⟨t, ht⟩ := transferStep_answers (s := { s with env := moves }) fail hidx
    refine ⟨t, (step_of_frame hp he).trans ht, ?_⟩
    rcases transferStep_wire ht with ⟨hnone, -⟩ | ⟨v, hv, hwire⟩
    · cases hnone.symm.trans hport
    · cases hv.symm.trans hport
      exact hwire
  · have hp : s.seq.phase = .wait := by
      by_contra hp
      cases ((dlyPort_eq_none_iff s).mpr hp).symm.trans hd
    cases (dlyPort_of_wait hp).symm.trans hd
    exact ⟨_, step_wait_over hp he, by simp⟩
  · exact (step_of_move hb he).trans (transferStep_of_no_offer fail ((txPort_withEnv s moves).trans hw))
  · refine (step_of_move hb he).trans ?_
    obtain ⟨t, ht⟩ := delayStep_answers { s with env := moves }
    rcases delayStep_cases ht with ⟨-, rfl⟩ | ⟨hp, -⟩
    · exact ht
    · exact absurd hp ((dlyPort_eq_none_iff s).mp hd)
  · cases he : s.env with
    | nil =>
      cases (step_of_waiting hp he).symm.trans ht
      exact ⟨rfl, rfl⟩
    | cons m moves =>
      have hkeep := agentMove_ports (s := { s with env := moves }) hp ((step_of_frame hp he).symm.trans ht) hwire
        (fun hm => hrst moves (hm ▸ he)) (fun k hm => hdur k moves (hm ▸ he))
      exact ⟨hkeep.1.trans (txPort_withEnv s moves), hkeep.2⟩

end Sys2Proof.Machine
end

section
/-! PROOFS. The statements of 43_serializer.md about whole frames (R162, R204): the state of a frame once some of its
pixels have been sent, the run that leads there, and its two ends, all pixels sent or one transfer failed. -/

namespace Sys2Proof.Machine

/-! ## The words of a frame (R162, R169) -/

theorem bufferHolds_nil (m : Memory) : bufferHolds m [] := by simp [bufferHolds]

/-- Words below an index together with the word at it. -/
theorem bufferHolds_append {m : Memory} {ws : List Word} {w : Word} (h : bufferHolds m ws)
    (hw : ∀ v, Memory.read? m ws.length = some v → w = v) : bufferHolds m (ws ++ [w]) := by
  intro i x v hx hv
  rcases Nat.lt_trichotomy i ws.length with hi | rfl | hi
  · exact h i x v (by rwa [List.getElem?_append_left hi] at hx) hv
  · obtain rfl : w = x := by simpa using hx
    exact hw v hv
  · rw [List.getElem?_eq_none (by simp; omega)] at hx
    cases hx

theorem frameTrace_append (d : BitVec 16) (ws : List Word) (w : Word) :
    frameTrace d (ws ++ [w]) = frameTrace d ws ++ pixelTrace d w := by
  simp [frameTrace]

/-- The agents' moves for the last of some pixels can be split off at the end. -/
theorem pixelsAnswers_succ (d : BitVec 16) (n : Nat) :
    pixelsAnswers d (n + 1) = pixelsAnswers d n ++ pixelAnswers d := by
  induction n with
  | zero => simp [pixelsAnswers]
  | succ n ih =>
    calc pixelsAnswers d (n + 1 + 1) = pixelAnswers d ++ pixelsAnswers d (n + 1) := rfl
      _ = pixelAnswers d ++ (pixelsAnswers d n ++ pixelAnswers d) := by rw [ih]
      _ = pixelsAnswers d (n + 1) ++ pixelAnswers d := (List.append_assoc _ _ _).symm

theorem frameAnswers_succ (d : BitVec 16) (n : Nat) : frameAnswers d (n + 1) = frameAnswers d n ++ pixelAnswers d := by
  rw [frameAnswers, frameAnswers, pixelsAnswers_succ, List.append_assoc]

/-! ## Runs of several steps -/

/-- Two runs one after the other. -/
theorem runFor_trans {a b : Nat} {s t u : State} (h : runFor a s = .next t) (h' : runFor b t = .next u) :
    runFor (a + b) s = .next u := (runFor_add b h).trans h'

/-- Two steps. -/
theorem runFor_two {s t u : State} (h : step s = .next t) (h' : step t = .next u) : runFor 2 s = .next u :=
  runFor_trans (runFor_one h) (runFor_one h')

/-- The accepted SHOW starts its frame (R164). -/
theorem runFor_show {s : State} {d : Half} {waiting : List Command} (hacc : s.accepts (encode (.showFrame d)) waiting) :
    runFor 1 s = .next (startFrame d { s with cmds := waiting }) := by
  obtain ⟨hb, hc, he⟩ := hacc
  exact runFor_one (step_of_command hb hc he (decode_encode _))

/-! ## The state within a frame -/

/-- The state of a frame with delay operand `d`, started from `s`, that is to send the pixel after the words `ws`:
IDX of them and CNT = IDX + 2 words are on the wire (R162, R204), and the agents' moves `rest` are still to come. -/
def State.framed (s : State) (d : BitVec 16) (ws : List Word) (rest : List EnvMove) (draws : Nat) : State :=
  { s with
    env := rest
    seq := { phase := .pix, idx := BitVec.ofNat 16 ws.length, dly := d, cnt := BitVec.ofNat 20 (ws.length + 2) }
    wire := s.wire ++ frameTrace d ws
    draws := draws }

/-- A number below NUMLEDS is an index of 16 bits. -/
theorem toNat_ofNat_of_lt {n : Half} {k : Nat} (h : k < n.toNat) : (BitVec.ofNat 16 k).toNat = k :=
  Nat.mod_eq_of_lt (h.trans n.isLt)

/-- IDX counts the pixels sent. -/
theorem framed_idx_toNat {s : State} {d : BitVec 16} {ws : List Word} {rest : List EnvMove} {draws : Nat}
    (h : ws.length < s.numLeds.toNat) : (s.framed d ws rest draws).seq.idx.toNat = ws.length :=
  toNat_ofNat_of_lt h

/-- CNT counts the words sent, the two zero words of the header included (R204). -/
theorem framed_cnt_toNat {s : State} {d : BitVec 16} {ws : List Word} {rest : List EnvMove} {draws : Nat}
    (h : ws.length < s.numLeds.toNat) : (s.framed d ws rest draws).seq.cnt.toNat = ws.length + 2 :=
  Nat.mod_eq_of_lt (by have := s.numLeds.isLt; omega)

/-! ## The header and one pixel (R163) -/

/-- The first zero word. -/
theorem step_startFrame_sent {s : State} (d : BitVec 16) {moves : List EnvMove}
    (he : s.env = .transport false :: moves) :
    step (startFrame d s) = .next { s with
      env := moves, seq := { phase := .rst1, idx := 0, dly := d, cnt := 1 }, wire := s.wire ++ [.word 0] } :=
  step_rst0_sent (s := startFrame d s) rfl he

/-- The header: two zero words. -/
theorem runFor_header {s : State} (d : BitVec 16) {rest : List EnvMove}
    (he : s.env = .transport false :: .transport false :: rest) :
    runFor 2 (startFrame d s) = .next (afterHeader { s with
      env := rest, seq := { phase := .rst1, idx := 0, dly := d, cnt := 2 },
      wire := s.wire ++ [.word 0, .word 0] }) := by
  refine (runFor_two (step_startFrame_sent d he) (step_rst1_sent rfl rfl)).trans ?_
  simp [sentWord, State.record]

/-- The pixel word `w` is on the wire, with the delay after it if one was asked for, and CNT counts it. -/
def sentPixel (w : Word) (s : State) : State :=
  { s with wire := s.wire ++ pixelTrace s.seq.dly w, seq := { s.seq with cnt := s.seq.cnt + 1 } }

/-- Without a delay a pixel is one transfer. -/
theorem sentPixel_of_no_delay (w : Word) {s : State} (h : s.seq.dly = 0) : sentPixel w s = sentWord w s := by
  rw [sentPixel, pixelTrace, if_pos h, sentWord, State.record]

/-- With one it is a transfer, then the delay in WAIT. -/
theorem sentPixel_of_delay (w : Word) {s : State} (h : s.seq.dly ≠ 0) :
    (sentPixel w s).withPhase .wait = ((sentWord w s).withPhase .wait).record (.delay s.seq.dly) := by
  rw [sentPixel, pixelTrace, if_neg h]
  simp [sentWord, State.record, State.withPhase]

/-- One pixel word, with its delay if one was asked for; then the sequencer advances. -/
theorem runFor_pixel {s : State} {rest : List EnvMove} (hp : s.seq.phase = .pix) (hidx : s.seq.idx.toNat < s.cap.toNat)
    (he : s.env = pixelAnswers s.seq.dly ++ rest) :
    ∃ w draws, (∀ v, Memory.read? s.buf s.seq.idx.toNat = some v → w = v) ∧
      runFor (pixelAnswers s.seq.dly).length s =
        .next (advanceFrame (sentPixel w { s with env := rest, draws := draws })) := by
  by_cases hd : s.seq.dly = 0
  · simp only [pixelAnswers, if_pos hd] at he ⊢
    obtain ⟨w, draws, hw, hsent⟩ := step_pix_sent hp hidx he
    rw [afterPixel_of_no_delay (by exact hd), ← sentPixel_of_no_delay w (by exact hd)] at hsent
    exact ⟨w, draws, hw, runFor_one hsent⟩
  · simp only [pixelAnswers, if_neg hd] at he ⊢
    obtain ⟨w, draws, hw, hsent⟩ := step_pix_sent hp hidx he
    rw [afterPixel_of_delay (by exact hd)] at hsent
    refine ⟨w, draws, hw, (runFor_two hsent (step_wait_over rfl rfl)).trans ?_⟩
    rw [← advanceFrame_withPhase .wait (sentPixel w _), sentPixel_of_delay w (by exact hd)]
    rfl

/-- Once the pixel after the words `ws` has been sent, the sequencer advances from it. -/
theorem runFor_framed_pixel {s : State} (d : BitVec 16) {ws : List Word} (rest : List EnvMove) (draws : Nat)
    (hlt : ws.length < s.numLeds.toNat) (hcap : s.numLeds.toNat ≤ s.cap.toNat) (hws : bufferHolds s.buf ws) :
    ∃ w draws', bufferHolds s.buf (ws ++ [w]) ∧
      runFor (pixelAnswers d).length (s.framed d ws (pixelAnswers d ++ rest) draws) =
        .next (advanceFrame { s with
          env := rest
          seq :=
            { phase := .pix, idx := BitVec.ofNat 16 ws.length, dly := d, cnt := BitVec.ofNat 20 (ws.length + 1 + 2) }
          wire := s.wire ++ frameTrace d (ws ++ [w])
          draws := draws' }) := by
  have hidx := framed_idx_toNat (d := d) (rest := pixelAnswers d ++ rest) (draws := draws) hlt
  obtain ⟨w, draws', hw, hrun⟩ := runFor_pixel (s := s.framed d ws (pixelAnswers d ++ rest) draws) (rest := rest) rfl
    (by rw [hidx]; exact hlt.trans_le hcap) rfl
  rw [hidx] at hw
  refine ⟨w, draws', bufferHolds_append hws hw, hrun.trans ?_⟩
  rw [frameTrace_append, ← List.append_assoc]
  simp [sentPixel, State.framed, BitVec.ofNat_add, BitVec.add_assoc]

/-! ## A whole frame (R162) -/

/-- Where the transport and the delay primitive answer the header and the first `j` pixels, and there are more, the
frame has sent them. -/
theorem runFor_frame {s : State} {d : BitVec 16} {j : Nat} {rest : List EnvMove} (hj : j < s.numLeds.toNat)
    (hcap : s.numLeds.toNat ≤ s.cap.toNat) (he : s.env = frameAnswers d j ++ rest) :
    ∃ ws draws, ws.length = j ∧ bufferHolds s.buf ws ∧
      runFor (frameAnswers d j).length (startFrame d s) = .next (s.framed d ws rest draws) := by
  induction j generalizing rest with
  | zero =>
    have hn : s.numLeds ≠ 0 := fun h => by simp [h] at hj
    refine ⟨[], s.draws, rfl, bufferHolds_nil _, (runFor_header d he).trans ?_⟩
    rw [afterHeader_of_pixels (by exact hn)]
    rfl
  | succ j ih =>
    rw [frameAnswers_succ, List.append_assoc] at he
    obtain ⟨ws, draws, rfl, hws, hrun⟩ := ih (by omega) he
    obtain ⟨w, draws', hws', hpixel⟩ := runFor_framed_pixel d rest draws (by omega) hcap hws
    refine ⟨ws ++ [w], draws', by simp, hws', ?_⟩
    have hmore : (BitVec.ofNat 16 ws.length).toNat + 1 ≠ s.numLeds.toNat := by
      rw [toNat_ofNat_of_lt (n := s.numLeds) (by omega)]; omega
    rw [frameAnswers_succ, List.length_append, runFor_trans hrun hpixel, advanceFrame_of_more (by exact hmore)]
    simp [State.framed, BitVec.ofNat_add]

/-- Where they answer the whole frame, it is on the wire and the response is OK (R162, R163, R168). -/
theorem runFor_whole_frame {s : State} {d : BitVec 16} {rest : List EnvMove} (hcap : s.numLeds.toNat ≤ s.cap.toNat)
    (he : s.env = frameAnswers d s.numLeds.toNat ++ rest) :
    ∃ ws t, ws.length = s.numLeds.toNat ∧ bufferHolds s.buf ws ∧
      runFor (frameAnswers d s.numLeds.toNat).length (startFrame d s) = .next t ∧ t.seq.phase = .idle ∧
      t = { s with env := rest, seq := t.seq, rsp := some 0, wire := s.wire ++ frameTrace d ws, draws := t.draws } := by
  cases hn : s.numLeds.toNat with
  | zero =>
    rw [hn] at he
    refine ⟨[], _, rfl, bufferHolds_nil _, runFor_header d he, ?_⟩
    rw [afterHeader_of_empty (by exact BitVec.eq_of_toNat_eq hn), finishFrame_state]
    exact ⟨rfl, rfl⟩
  | succ j =>
    rw [hn, frameAnswers_succ, List.append_assoc] at he
    obtain ⟨ws, draws, rfl, hws, hrun⟩ := runFor_frame (by omega) hcap he
    obtain ⟨w, draws', hws', hpixel⟩ := runFor_framed_pixel d rest draws (by omega) hcap hws
    have hlast : (BitVec.ofNat 16 ws.length).toNat + 1 = s.numLeds.toNat := by
      rw [toNat_ofNat_of_lt (n := s.numLeds) (by omega), hn]
    rw [advanceFrame_of_last (by exact hlast), finishFrame_state] at hpixel
    rw [frameAnswers_succ, List.length_append]
    exact ⟨ws ++ [w], _, by simp, hws', runFor_trans hrun hpixel, rfl, rfl⟩

/-- Where the transfer of pixel `j` fails, the frame ends with TransportFailure(j + 2) (R167, R204). -/
theorem runFor_failed_frame {s : State} {d : BitVec 16} {j : Nat} {rest : List EnvMove} (hj : j < s.numLeds.toNat)
    (hcap : s.numLeds.toNat ≤ s.cap.toNat) (he : s.env = frameAnswers d j ++ .transport true :: rest) :
    ∃ ws w t u, ws.length = j ∧ bufferHolds s.buf (ws ++ [w]) ∧
      runFor ((frameAnswers d j).length + 1) (startFrame d s) = .next t ∧ t.seq.phase = .idle ∧
      failsWith 3 (j + 2) u t ∧
      u = { s with env := rest, seq := t.seq, wire := s.wire ++ frameTrace d ws ++ [.fail w], draws := t.draws } := by
  obtain ⟨ws, draws, rfl, hws, hrun⟩ := runFor_frame hj hcap he
  have hidx := framed_idx_toNat (d := d) (rest := .transport true :: rest) (draws := draws) hj
  obtain ⟨w, t, u, hstep, -, hw, hidle, hu, hfails⟩ := failedTransferAbortsTheFrame
    (s.framed d ws (.transport true :: rest) draws) rest rfl
    (.inr (.inr ⟨rfl, by rw [hidx]; exact hj.trans_le hcap⟩))
  have hw := hw rfl
  rw [hidx] at hw
  rw [framed_cnt_toNat hj] at hfails
  exact ⟨ws, w, t, u, rfl, bufferHolds_append hws hw, runFor_trans hrun (runFor_one hstep), hidle, hfails, hu⟩

/-! ## The statements -/

/-- Settles O36: SHOW's own step, then the whole frame. -/
theorem showSendsTheWholeFrame : Obligations.ShowSendsTheWholeFrame := by
  intro s d waiting rest hacc hcap he
  obtain ⟨ws, t, hlen, hws, hrun, hidle, ht⟩ := runFor_whole_frame (s := { s with cmds := waiting }) hcap he
  exact ⟨ws, t, hlen, hws, runFor_trans (runFor_show hacc) hrun, hidle, ht⟩

/-- Settles O37: a failure in the header is one in RST0 or RST1, any other one after the pixels sent before it. -/
theorem showStopsAtTheFirstFailedTransfer : Obligations.ShowStopsAtTheFirstFailedTransfer := by
  intro s d waiting rest hacc hcap
  have hshow := runFor_show hacc
  refine ⟨fun he => ?_, fun he => ?_, fun j hj he => ?_⟩
  · have hfail := step_header_failed (s := startFrame d { s with cmds := waiting }) (.inl rfl) he
    exact ⟨_, _, runFor_trans hshow (runFor_one hfail), rfl, failedWord_failsWith 0 _, rfl⟩
  · have hsent := step_startFrame_sent (s := { s with cmds := waiting }) d he
    have hrun := runFor_trans hshow (runFor_two hsent (step_header_failed (.inr rfl) rfl))
    exact ⟨_, _, hrun, rfl, failedWord_failsWith 0 _, by simp [State.record, State.withPhase]⟩
  · rw [List.append_assoc] at he
    obtain ⟨ws, w, t, u, hlen, hws, hrun, hrest⟩ := runFor_failed_frame (s := { s with cmds := waiting }) hj hcap he
    have hsum : 2 + (frameAnswers d j).length = 1 + ((frameAnswers d j).length + 1) := by omega
    exact ⟨ws, w, t, u, hlen, hws, hsum ▸ runFor_trans hshow hrun, hrest⟩

end Sys2Proof.Machine
end

section
/-! PROOFS. The statements of 44_driver.md: what INIT does before its frame (R180), that SETNUM, CLEAR and SHOW 0 do the
same (R181), and the two ends of its frame, the whole all-off frame sent or one transfer failed (R180, R204). -/

namespace Sys2Proof.Machine

/-! ## INIT before its frame (R180) -/

/-- The state in which INIT starts its frame: NUMLEDS written, then the words below it cleared. -/
def initialized (count : Half) (s : State) : State := clearWords count.toNat (setNumLeds count s)

/-- INIT of a count up to C starts a frame without delay from there. -/
theorem exec_init_access {count : Half} {s : State} (h : count.toNat ≤ s.cap.toNat) :
    exec (.init count) s = .next (startFrame 0 (initialized count s)) :=
  (exec_init count s).trans (withCapacity_access _ h)

theorem initialized_state (count : Half) (s : State) :
    initialized count s = { s with buf := (initialized count s).buf, numLeds := count } :=
  clearWords_state count.toNat (setNumLeds count s)

theorem initialized_read_below {count : Half} (s : State) {a : Nat} (h : a < count.toNat) :
    Memory.read? (initialized count s).buf a = some offPixel :=
  (clearWords_read _ _ _).trans (if_pos h)

theorem initialized_read_above {count : Half} (s : State) {a : Nat} (h : count.toNat ≤ a) :
    Memory.read? (initialized count s).buf a = Memory.read? s.buf a :=
  (clearWords_read _ _ _).trans (if_neg (Nat.not_lt.mpr h))

@[simp] theorem initialized_numLeds (count : Half) (s : State) : (initialized count s).numLeds = count := by
  rw [initialized_state]

@[simp] theorem initialized_cap (count : Half) (s : State) : (initialized count s).cap = s.cap := by
  rw [initialized_state]

@[simp] theorem initialized_env (count : Half) (s : State) : (initialized count s).env = s.env := by
  rw [initialized_state]

/-- The accepted INIT starts its frame. -/
theorem runFor_init {s : State} {count : Half} {waiting : List Command}
    (hacc : s.accepts (encode (.init count)) waiting) (hcap : count.toNat ≤ s.cap.toNat) :
    runFor 1 s = .next (startFrame 0 (initialized count { s with cmds := waiting })) := by
  obtain ⟨hb, hc, he⟩ := hacc
  exact runFor_one ((step_of_command hb hc he (decode_encode _)).trans (exec_init_access hcap))

/-- Settles O40: the frame starts from the state that the NUMLEDS write and the clearing leave. -/
theorem initClearsAndStartsTheFrame : Obligations.InitClearsAndStartsTheFrame := by
  intro count s hcap
  refine ⟨_, exec_init_access hcap, fun a => initialized_read_below s, fun a => initialized_read_above s, ?_⟩
  rw [initialized_state]
  rfl

/-! ## INIT as three commands (R181) -/

/-- The clearing neither reads nor changes the pending response. -/
theorem fillFrom_respond (v : Word) (n i : Nat) (d : Data) (s : State) :
    fillFrom v n i (respond d s) = respond d (fillFrom v n i s) := by
  induction n generalizing i s with
  | zero => rfl
  | succ n ih => exact ih (i + 1) (s.memWrite i v)

/-- SETNUM, then CLEAR, leave the state in which INIT starts its frame, the response aside. -/
theorem exec_clear_after_setnum {count : Half} {s : State} (h : count.toNat ≤ s.cap.toNat) :
    exec .clear (respond 0 (setNumLeds count s)) = .next (respond 0 (initialized count s)) := by
  rw [exec_clear, withBatch_access _ h, respond_numLeds, setNumLeds_numLeds, clearWords, fillFrom_respond,
    respond_respond]
  rfl

/-- Settles O42: up to C the three commands and INIT start the same frame; above C both checks fail alike. -/
theorem initEqualsSetnumClearShow : Obligations.InitEqualsSetnumClearShow := by
  intro count s
  constructor
  · intro h
    refine ⟨_, _, _, (exec_setnum count s).trans (withCapacity_access _ h), exec_clear_after_setnum h, rfl, ?_⟩
    rw [exec_init_access h, initialized_state]
    rfl
  · intro h
    rw [exec_init, exec_setnum, withCapacity_refuses _ h, withCapacity_refuses _ h]

/-! ## A frame without delay over written words (43_serializer.md R162, R163) -/

/-- Every word of the strip is written and is `w`, and NUMLEDS <= C. -/
structure State.StripHolds (s : State) (w : Word) : Prop where
  numLeds_le : s.numLeds.toNat ≤ s.cap.toNat
  read : ∀ a, a < s.numLeds.toNat → Memory.read? s.buf a = some w

/-- Without a delay each pixel is answered by one move, as the two words of the header are. -/
theorem frameAnswers_no_delay (n : Nat) : frameAnswers 0 n = List.replicate (n + 2) (.transport false) := by
  induction n with
  | zero => rfl
  | succ n ih => rw [frameAnswers_succ, ih, List.replicate_succ' (n := n + 2)]; rfl

/-- Without a delay a frame is the header and its words. -/
theorem frameTrace_no_delay (ws : List Word) : frameTrace 0 ws = .word 0 :: .word 0 :: ws.map .word := by
  rw [List.map_eq_flatMap]
  rfl

/-- The first words of such a frame are a frame of the first words. -/
theorem take_frameTrace_no_delay {j n : Nat} (w : Word) (h : j ≤ n) :
    (frameTrace 0 (List.replicate n w)).take (j + 2) = frameTrace 0 (List.replicate j w) := by
  rw [frameTrace_no_delay, frameTrace_no_delay]
  simp [Nat.min_eq_left h]

/-- A written pixel word is sent, or fails, without a draw of a free value (20_memory.md R62). -/
theorem transferStep_pix_written {s : State} {w : Word} (fail : Bool) (hp : s.seq.phase = .pix)
    (hidx : s.seq.idx.toNat < s.cap.toNat) (hw : Memory.read? s.buf s.seq.idx.toNat = some w) :
    transferStep fail s = .next (if fail then failedWord w s else afterPixel (sentWord w s)) := by
  simp [transferStep, hp, State.addressable, hidx, memRead_of_written hw]

section
variable {s : State} {w : Word} (h : s.StripHolds w)
include h

/-- The pixel that comes after `j` pixels. -/
theorem step_framed_pixel {j : Nat} (fail : Bool) (rest : List EnvMove) (hj : j < s.numLeds.toNat) :
    step (s.framed 0 (List.replicate j w) (.transport fail :: rest) s.draws) =
      .next (if fail then failedWord w (s.framed 0 (List.replicate j w) rest s.draws)
        else advanceFrame (sentWord w (s.framed 0 (List.replicate j w) rest s.draws))) := by
  have hidx : (s.framed 0 (List.replicate j w) rest s.draws).seq.idx.toNat = j := by
    rw [framed_idx_toNat (by simpa using hj), List.length_replicate]
  have hpixel := transferStep_pix_written (s := s.framed 0 (List.replicate j w) rest s.draws) (w := w) fail rfl
    (by rw [hidx]; exact hj.trans_le h.numLeds_le) (by rw [hidx]; exact h.read j hj)
  rw [afterPixel_of_no_delay (by rfl)] at hpixel
  exact (step_of_frame (m := .transport fail) (by simp [State.framed]) rfl).trans hpixel

/-- Where the transport answers the header and the first `j` pixels, and there are more, the frame has sent them. -/
theorem runFor_framed {j : Nat} {rest : List EnvMove} (hj : j < s.numLeds.toNat)
    (he : s.env = List.replicate (j + 2) (.transport false) ++ rest) :
    runFor (j + 2) (startFrame 0 s) = .next (s.framed 0 (List.replicate j w) rest s.draws) := by
  induction j generalizing rest with
  | zero =>
    have hn : s.numLeds ≠ 0 := fun h0 => by simp [h0] at hj
    rw [runFor_header 0 he, afterHeader_of_pixels (by exact hn)]
    rfl
  | succ j ih =>
    rw [List.replicate_succ', List.append_assoc] at he
    refine (runFor_trans (ih (by omega) he) (runFor_one (step_framed_pixel h false rest (by omega)))).trans ?_
    have hmore : (BitVec.ofNat 16 j).toNat + 1 ≠ s.numLeds.toNat := by
      rw [toNat_ofNat_of_lt (n := s.numLeds) (by omega)]; omega
    rw [if_neg Bool.false_ne_true, advanceFrame_of_more (by simpa [State.framed] using hmore), List.replicate_succ']
    simp [State.framed, frameTrace_append, pixelTrace, BitVec.ofNat_add, BitVec.add_assoc]

/-- Where it answers the whole frame, the frame is on the wire and the response is OK. -/
theorem runFor_frame_finished {rest : List EnvMove}
    (he : s.env = List.replicate (s.numLeds.toNat + 2) (.transport false) ++ rest) :
    ∃ t, runFor (s.numLeds.toNat + 2) (startFrame 0 s) = .next t ∧ t.seq.phase = .idle ∧ t = { s with
      env := rest, seq := t.seq, rsp := some 0
      wire := s.wire ++ frameTrace 0 (List.replicate s.numLeds.toNat w) } := by
  cases hn : s.numLeds.toNat with
  | zero =>
    rw [hn] at he
    refine ⟨_, runFor_header 0 he, ?_⟩
    rw [afterHeader_of_empty (by exact BitVec.eq_of_toNat_eq hn), finishFrame_state]
    exact ⟨rfl, rfl⟩
  | succ j =>
    rw [hn, List.replicate_succ', List.append_assoc] at he
    have hlast : (BitVec.ofNat 16 j).toNat + 1 = s.numLeds.toNat := by
      rw [toNat_ofNat_of_lt (n := s.numLeds) (by omega), hn]
    have hrun := runFor_trans (runFor_framed h (by omega) he) (runFor_one (step_framed_pixel h false rest (by omega)))
    refine ⟨_, hrun, ?_⟩
    rw [if_neg Bool.false_ne_true, advanceFrame_of_last (by simpa [State.framed] using hlast), finishFrame_state,
      List.replicate_succ', frameTrace_append]
    exact ⟨rfl, by simp [State.framed, State.withPhase, pixelTrace]⟩

/-- Where the first `k` transfers are ok and the next one fails, the frame has sent `k` words when it fails. -/
theorem runFor_frame_failed {k : Nat} {rest : List EnvMove} (hk : k < s.numLeds.toNat + 2)
    (he : s.env = List.replicate k (.transport false) ++ .transport true :: rest) :
    ∃ q : Seq, q.cnt.toNat = k ∧ runFor (k + 1) (startFrame 0 s) =
      .next (failedWord (if k < 2 then 0 else w) { s with
        env := rest, seq := q, wire := s.wire ++ (frameTrace 0 (List.replicate s.numLeds.toNat w)).take k }) := by
  match k with
  | 0 =>
    refine ⟨{ phase := .rst0, idx := 0, dly := 0, cnt := 0 }, rfl, ?_⟩
    rw [runFor_one (step_header_failed (s := startFrame 0 s) (.inl rfl) he), List.take_zero, List.append_nil]
    rfl
  | 1 =>
    refine ⟨{ phase := .rst1, idx := 0, dly := 0, cnt := 1 }, rfl, ?_⟩
    exact runFor_two (step_startFrame_sent 0 he) (step_header_failed (.inr rfl) rfl)
  | j + 2 =>
    have hj : j < s.numLeds.toNat := by omega
    have hcnt : (s.framed 0 (List.replicate j w) rest s.draws).seq.cnt.toNat = j + 2 := by
      rw [framed_cnt_toNat (by simpa using hj), List.length_replicate]
    refine ⟨_, hcnt, ?_⟩
    rw [take_frameTrace_no_delay w hj.le]
    exact runFor_trans (runFor_framed h hj he) (runFor_one (step_framed_pixel h true rest hj))

end

/-! ## INIT to its end (R180, R204) -/

/-- INIT leaves its strip all off. -/
theorem initialized_stripHolds {count : Half} {s : State} (h : count.toNat ≤ s.cap.toNat) :
    (initialized count s).StripHolds offPixel where
  numLeds_le := by simpa using h
  read a ha := initialized_read_below s (by simpa using ha)

/-- Settles O41: INIT's own step, then the whole frame. -/
theorem initSendsTheAllOffFrame : Obligations.InitSendsTheAllOffFrame := by
  intro s count waiting rest hacc hcap he
  rw [frameAnswers_no_delay] at he ⊢
  have hstrip : (initialized count { s with cmds := waiting }).StripHolds offPixel := initialized_stripHolds hcap
  obtain ⟨t, hrun, hidle, ht⟩ := runFor_frame_finished hstrip (rest := rest) (by simpa using he)
  rw [initialized_numLeds] at hrun ht
  have hbuf : t.buf = (initialized count { s with cmds := waiting }).buf := by rw [ht]
  refine ⟨t, ?_, hidle, fun a ha => ?_, fun a ha => ?_, ?_⟩
  · rw [List.length_replicate]
    exact runFor_trans (runFor_init hacc hcap) hrun
  · rw [hbuf]; exact initialized_read_below _ ha
  · rw [hbuf]; exact initialized_read_above _ ha
  · rw [hbuf, ht, initialized_state]
    rfl

/-- Settles O60: INIT's own step, then the frame up to the failed transfer. -/
theorem initStopsAtTheFirstFailedTransfer : Obligations.InitStopsAtTheFirstFailedTransfer := by
  intro s count waiting rest k hacc hcap hk he
  have hstrip : (initialized count { s with cmds := waiting }).StripHolds offPixel := initialized_stripHolds hcap
  obtain ⟨q, hcnt, hrun⟩ := runFor_frame_failed hstrip (rest := rest) (by simpa using hk) (by simpa using he)
  have hsteps := runFor_trans (runFor_init hacc hcap) hrun
  rw [show 1 + (k + 1) = k + 2 by omega] at hsteps
  subst hcnt
  refine ⟨_, _, hsteps, rfl, failedWord_failsWith _ _, fun a ha => ?_, fun a ha => ?_, ?_⟩
  · exact initialized_read_below _ ha
  · exact initialized_read_above _ ha
  · rw [initialized_numLeds, initialized_state]
    rfl

end Sys2Proof.Machine
end

section
/-! PROOFS. The statements of 45_system.md: NOP (R185), what RDCSR answers for each register (R186), what WRCSR writes
and refuses (R187), and which state the answers of the commands without a buffer access depend on (R188). -/

namespace Sys2Proof.Machine

/-! ## NOP (R185) -/

theorem exec_nop (s : State) : exec .nop s = .next (respond 0 s) := rfl

/-- Settles O43. -/
theorem nopOnlyAnswers : Obligations.NopOnlyAnswers := by
  intro s
  rw [exec_nop, respond_eq_ofNat]
  rfl

/-! ## RDCSR (10_state.md R32, 45_system.md R186) -/

/-- The numbers above 3 name no register. -/
theorem csrOfNumber_eq_none {csr : Half} (h : 3 < csr.toNat) : csrOfNumber csr = none := by
  cases hr : csrOfNumber csr with
  | none => rfl
  | some r => rcases csrOfNumber_eq hr with ⟨rfl, -⟩ | ⟨rfl, -⟩ | ⟨rfl, -⟩ | ⟨rfl, -⟩ <;> exact absurd h (by decide)

theorem csrValue_numLeds_toNat (s : State) : (csrValue .numLeds s).toNat = s.numLeds.toNat :=
  BitVec.toNat_setWidth_of_le (by decide)

theorem csrValue_mode_toNat (s : State) : (csrValue .mode s).toNat = s.mode.toNat :=
  BitVec.toNat_setWidth_of_le (by decide)

/-- RDCSR of a number that names a register answers its value. -/
theorem exec_rdcsr_of_register {csr : Half} {r : Csr} (s : State) (h : csrOfNumber csr = some r) :
    exec (.rdcsr csr) s = .next { s with rsp := some (BitVec.ofNat 32 (csrValue r s).toNat) } := by
  rw [← respond_eq_ofNat, exec, execRdcsr, h]

/-- RDCSR of a number that names no register is illegal. -/
theorem exec_rdcsr_of_none {csr : Half} (s : State) (h : csrOfNumber csr = none) :
    exec (.rdcsr csr) s = .next (raiseIllegal 0x0D s) := by
  rw [exec, execRdcsr, h]

/-- Settles O44, register by register. -/
theorem rdcsrAnswersTheRegister : Obligations.RdcsrAnswersTheRegister := by
  intro csr s
  refine ⟨fun h => ?numLeds, fun h => ?cap, fun h => ?mode, fun h => ?err, fun h => ?illegal⟩
  case numLeds =>
    obtain rfl : csr = 0 := BitVec.eq_of_toNat_eq h
    rw [← csrValue_numLeds_toNat]
    exact exec_rdcsr_of_register s rfl
  case cap =>
    obtain rfl : csr = 1 := BitVec.eq_of_toNat_eq h
    exact exec_rdcsr_cap s
  case mode =>
    obtain rfl : csr = 2 := BitVec.eq_of_toNat_eq h
    rw [← csrValue_mode_toNat]
    exact exec_rdcsr_of_register s rfl
  case err =>
    obtain rfl : csr = 3 := BitVec.eq_of_toNat_eq h
    exact exec_rdcsr_of_register (r := .err) s rfl
  case illegal =>
    exact ⟨_, exec_rdcsr_of_none s (csrOfNumber_eq_none h), raiseIllegal_failsWith 0x0D s⟩

/-! ## WRCSR (10_state.md R25, 45_system.md R187) -/

/-- MODE's reserved bits 23:2 are zero in the values below 4. -/
theorem modeReserved_eq_zero_iff (value : Data) : value.extractLsb' 2 22 = 0 ↔ value.toNat < 4 := by
  have hv := value.isLt
  rw [← BitVec.toNat_inj, BitVec.extractLsb'_toNat, Nat.shiftRight_eq_div_pow]
  change _ = 0 ↔ _
  omega

theorem exec_wrcsr_mode {value : Data} (s : State) (h : value.toNat < 4) :
    exec (.wrcsr 2 value) s = .next (respond 0 (setMode value s)) :=
  if_pos ((modeReserved_eq_zero_iff value).mpr h)

theorem exec_wrcsr_err (s : State) : exec (.wrcsr 3 0) s = .next (respond 0 (clearError s)) := rfl

/-- WRCSR of a register and a value that it does not take is illegal. -/
theorem exec_wrcsr_illegal {csr : Half} {value : Data} (s : State) (h : writableCsr csr value = false) :
    exec (.wrcsr csr value) s = .next (raiseIllegal 0x0E s) := by
  cases hr : csrOfNumber csr with
  | none => rw [exec, execWrcsr, hr]
  | some r =>
    rcases csrOfNumber_eq hr with ⟨rfl, -⟩ | ⟨rfl, -⟩ | ⟨rfl, -⟩ | ⟨rfl, -⟩
    · rfl
    · rfl
    · have hv : ¬ value.toNat < 4 := by simpa [writableCsr] using h
      exact if_neg (mt (modeReserved_eq_zero_iff value).mp hv)
    · have hv : value ≠ 0 := by
        rintro rfl
        exact absurd h (by decide)
      exact if_neg hv

/-- Settles O45: the two writes, and the refusal of everything that is not writable. -/
theorem wrcsrWritesModeOrClearsErr : Obligations.WrcsrWritesModeOrClearsErr := by
  intro csr value s
  refine ⟨fun hcsr hv => ?mode, fun hcsr hv => ?err, fun h => ?illegal⟩
  case mode =>
    obtain rfl : csr = 2 := BitVec.eq_of_toNat_eq hcsr
    rw [exec_wrcsr_mode s hv, respond_eq_ofNat, setMode, BitVec.ofNat_toNat]
    rfl
  case err =>
    obtain rfl : csr = 3 := BitVec.eq_of_toNat_eq hcsr
    obtain rfl : value = 0 := BitVec.eq_of_toNat_eq hv
    rw [exec_wrcsr_err, respond_eq_ofNat]
    rfl
  case illegal =>
    have hrefused : writableCsr csr value = false := by
      simp only [writableCsr, Bool.or_eq_false_iff, Bool.and_eq_false_iff, decide_eq_false_iff_not]
      omega
    exact ⟨_, exec_wrcsr_illegal s hrefused, raiseIllegal_failsWith 0x0E s⟩

/-! ## What an answer depends on (R188) -/

/-- Where a command is known to answer some data, its response is that data. -/
theorem rsp_of_exec_respond {i : Instr} {s t : State} {data : Data} (hi : exec i s = .next (respond data s))
    (ht : exec i s = .next t) : t.rsp = some (response 0 data) := by
  cases hi.symm.trans ht
  rfl

/-- Settles O46: the data of each answer, as a number, holds at most its one bit of MODE. -/
theorem pureCommandsReadOnlyTheirModeBit : Obligations.PureCommandsReadOnlyTheirModeBit := by
  intro s s' t t' r g b w f
  refine ⟨fun hmode ht ht' => ?encode, fun hmode ht ht' => ?scalew, fun ht ht' => ?decode, fun ht ht' => ?nop⟩
  case encode =>
    rw [rsp_of_exec_respond (exec_encodeRgb r g b s) ht, rsp_of_exec_respond (exec_encodeRgb r g b s') ht',
      encodePixel_eq_ofNat, encodePixel_eq_ofNat, hmode]
  case scalew =>
    rw [rsp_of_exec_respond (exec_scalew w f s) ht, rsp_of_exec_respond (exec_scalew w f s') ht',
      scaleWord_eq_ofNat, scaleWord_eq_ofNat, hmode]
  case decode =>
    rw [rsp_of_exec_respond (exec_decodeWord w s) ht, rsp_of_exec_respond (exec_decodeWord w s') ht']
  case nop =>
    rw [rsp_of_exec_respond (exec_nop s) ht, rsp_of_exec_respond (exec_nop s') ht']

end Sys2Proof.Machine
end

section
/-! PROOFS. The statements of 60_exceptions.md: what raising an error does (R207), that a command either raises an error
and does nothing else or ends without one (R200), and the two checked errors, IndexOutOfRange (R202) and CapacityViolation
(R203). -/

namespace Sys2Proof.Machine

/-! ## Errors in general (R200, R207, R209) -/

/-- Settles O11: status and information value as numbers, and the record kept if there is one. -/
theorem raisedErrorIsRecordedAndAnswered : Obligations.RaisedErrorIsRecordedAndAnswered := raiseError_failsWith

/-- Settles O14: with NUMLEDS <= C no access faults, and a command ends with a response or with its frame started. -/
theorem everyCommandAnswersANextState : Obligations.EveryCommandAnswersANextState := by
  intro i s hcap
  obtain ⟨t, ht⟩ := exec_answers i hcap
  exact ⟨t, ht, exec_busy ht⟩

/-- A command ends in one of three ways: it raises an error, it answers with status OK, or it starts its frame and leaves
the pending response as it was (R200, log entry 22). -/
theorem exec_raises_or_succeeds {i : Instr} {s t : State} (h : exec i s = .next t) :
    (∃ e info, t = raiseError e info s) ∨ (∃ data, t.rsp = some (response 0 data)) ∨ t.rsp = s.rsp := by
  rcases exec_cases h with hraise | ⟨d, rfl⟩ | ⟨n, -, -, rfl⟩ | ⟨n, -, -, rfl⟩ | ⟨-, -, rfl⟩ | ⟨d, -, rfl⟩ |
    ⟨n, v, -, -, -, -, rfl⟩ | ⟨n, -, -, -, rfl⟩ | ⟨n, f, -, -, -, rfl⟩ | ⟨f, -, -, rfl⟩ | ⟨v, -, rfl⟩ | ⟨-, rfl⟩
  · exact .inl hraise
  · exact .inr (.inl ⟨d, rfl⟩)
  · exact .inr (.inr (clearWords_rsp _ _))
  · exact .inr (.inl ⟨0, rfl⟩)
  · exact .inr (.inl ⟨0, rfl⟩)
  · exact .inr (.inr rfl)
  · exact .inr (.inl ⟨0, rfl⟩)
  · exact .inr (.inl ⟨_, rfl⟩)
  · exact .inr (.inl ⟨0, rfl⟩)
  · exact .inr (.inl ⟨0, rfl⟩)
  · exact .inr (.inl ⟨0, rfl⟩)
  · exact .inr (.inl ⟨0, rfl⟩)

/-- Settles O12: of the three ends of a command only a raised error leaves a response with a non-zero status, where none
was pending before; and it keeps the rest of the state, a recorded ERR included. -/
theorem failingCommandHasNoOtherEffect : Obligations.FailingCommandHasNoOtherEffect := by
  intro i s t r hnone hexec hr hstatus
  rcases exec_raises_or_succeeds hexec with ⟨e, info, rfl⟩ | ⟨data, hok⟩ | hkept
  · exact ⟨rfl, raiseError_err_of_recorded e info⟩
  · obtain rfl : r = response 0 data := Option.some.inj (hr.symm.trans hok)
    exact absurd (rspStatus_response 0 data) hstatus
  · cases hr.symm.trans (hkept.trans hnone)

/-! ## The two checks (R202, R203) -/

/-- IndexOutOfRange has status 1 and the index as information value (R202). -/
theorem raiseIndexOutOfRange_failsWith (n : Half) (s : State) :
    failsWith 1 n.toNat s (raiseError .indexOutOfRange (n.setWidth 20) s) := by
  rw [← BitVec.toNat_setWidth_of_le (b := n) (show 16 ≤ 20 by decide)]
  exact raiseError_failsWith .indexOutOfRange (n.setWidth 20) s

/-- Settles O19: the four commands share the index check, which refuses before any access. -/
theorem indexAtOrAboveNumledsFails : Obligations.IndexAtOrAboveNumledsFails := by
  intro n r g b word factor s hn
  exact ⟨_, raiseIndexOutOfRange_failsWith n s, (exec_setrgb n r g b s).trans (withIndex_refuses _ hn),
    (exec_setw n word s).trans (withIndex_refuses _ hn), (exec_getw n s).trans (withIndex_refuses _ hn),
    (exec_scale1 n factor s).trans (withIndex_refuses _ hn)⟩

/-- Settles O20: SETNUM and INIT share the capacity check, which refuses above C and lets C itself through. -/
theorem countAboveCapacityFails : Obligations.CountAboveCapacityFails := by
  intro n s
  constructor
  · intro hn
    exact ⟨_, raiseCapacityViolation_failsWith n s, (exec_setnum n s).trans (withCapacity_refuses _ hn),
      (exec_init n s).trans (withCapacity_refuses _ hn)⟩
  · rintro rfl
    have hcap : s.cap.toNat ≤ s.cap.toNat := Nat.le_refl _
    refine ⟨_, _, (exec_setnum s.cap s).trans (withCapacity_access _ hcap), rfl, rfl, rfl, exec_init_access hcap,
      initialized_numLeds s.cap s, ?_, ?_, rfl⟩
    · exact clearWords_rsp _ _
    · exact clearWords_err _ _

end Sys2Proof.Machine
end

section
/-! PROOFS. The statements of 70_reset_and_hazards.md about reset: what `rst` leaves between two steps of the block
(R230), and what a command that reset abandons has written (R231). -/

namespace Sys2Proof.Machine

/-! ## The reset of a block that accepts no word (R230) -/

/-- A block that is busy or has no word to accept is reset when `rst` is the move laid out first (R230, R242). -/
theorem step_of_rst {s : State} {moves : List EnvMove} (hw : s.busy = true ∨ s.cmds = []) (he : s.env = .rst :: moves) :
    step s = .next ({ s with env := moves } : State).rst := step_of_move hw he

/-- An accepted word changes neither C, nor the record of the run, nor the moves laid out, and the other words wait on
(30_encoding.md R85). -/
theorem step_accepts_state {s t : State} {w : Command} {waiting : List Command} (hacc : s.accepts w waiting)
    (ht : step s = .next t) :
    t = { s with
      buf := t.buf, numLeds := t.numLeds, mode := t.mode, err := t.err, seq := t.seq, rsp := t.rsp, draws := t.draws,
      cmds := waiting } := by
  obtain ⟨hb, hc, he⟩ := hacc
  cases hd : decode w with
  | ok i => exact exec_state ((step_of_command hb hc he hd).symm.trans ht)
  | error e =>
    cases (step_of_illegal hb hc he hd).symm.trans ht
    rfl

/-- An accepted word leads to a next state when NUMLEDS <= C (R85, 20_memory.md R56). -/
theorem step_accepts_answers {s : State} {w : Command} {waiting : List Command} (hacc : s.accepts w waiting)
    (hcap : s.numLeds.toNat ≤ s.cap.toNat) : ∃ t, step s = .next t := by
  obtain ⟨hb, hc, he⟩ := hacc
  cases hd : decode w with
  | ok i =>
    obtain ⟨t, ht⟩ := exec_answers i (s := { s with cmds := waiting }) hcap
    exact ⟨t, (step_of_command hb hc he hd).trans ht⟩
  | error e => exact ⟨_, step_of_illegal hb hc he hd⟩

/-- Settles O56: a waiting word is accepted first and makes the block busy, so that the step after it is the reset. -/
theorem rstResetsEverythingButTheBuffer : Obligations.RstResetsEverythingButTheBuffer := by
  intro s moves he
  refine ⟨fun hw => ⟨_, step_of_rst hw he, rfl, rfl, rfl, rfl, rfl, rfl⟩, fun w waiting hb hc hcap => ?_⟩
  have hacc : s.accepts w waiting := ⟨hb, hc, by simp [he]⟩
  obtain ⟨t, ht⟩ := step_accepts_answers hacc hcap
  have hstate := step_accepts_state hacc ht
  have hbusy : t.busy = true := (acceptedCommandMakesTheBlockBusy s t w waiting hacc ht).1
  have henv : t.env = .rst :: moves := by rw [hstate]; exact he
  refine ⟨t, _, ht, step_of_rst (.inl hbusy) henv, rfl, rfl, rfl, rfl, rfl, ?_⟩
  rw [hstate]
  rfl

/-! ## The buffer writes of an abandoned command (R231, log entry 11) -/

/-- Reset laid out during the waiting command abandons it (R231). -/
theorem step_of_rstDuring {s : State} {w : Command} {waiting : List Command} {k : Nat} {moves : List EnvMove}
    (hb : s.busy = false) (hc : s.cmds = w :: waiting) (he : s.env = .rstDuring k :: moves) :
    step s = .next (abandonCommand w k { s with cmds := waiting, env := moves }) := by
  simp [step, nextAction, hb, hc, he]

/-- A command that never writes BUF leaves the state as it was. -/
theorem partlyDone_of_no_write {i : Instr} (k : Nat) (s : State) (h : writesBuffer i = false) :
    partlyDone i k s = s := by
  cases i with
  | init => cases h
  | clear => cases h
  | scaleall => cases h
  | setrgb => cases h
  | setw => cases h
  | scale1 => cases h
  | _ => rfl

/-- With no write allowed the single access is not made. -/
@[simp] theorem abandonedAccess_zero (n : Half) (s : State) (access : State → State) :
    abandonedAccess n 0 s access = s := by simp [abandonedAccess]

/-- A command abandoned before its first write leaves the state as it was. -/
theorem partlyDone_zero (i : Instr) (s : State) : partlyDone i 0 s = s := by
  cases i with
  | init n =>
    rw [partlyDone, Nat.zero_min]
    exact ite_self s
  | clear => rw [partlyDone, Nat.zero_min]; rfl
  | scaleall f => rw [partlyDone, Nat.zero_min]; rfl
  | setrgb n r g b => exact abandonedAccess_zero n s _
  | setw n word => exact abandonedAccess_zero n s _
  | scale1 n f => exact abandonedAccess_zero n s _
  | _ => rfl

/-- A single access that writes the word `v` at its index has done so when it was allowed and the index is below NUMLEDS
(41_buffer.md R120). -/
theorem abandonedAccess_read {n : Half} {k a : Nat} {s : State} {access : State → State} {v : Word}
    (hcap : s.numLeds.toNat ≤ s.cap.toNat) (hsame : Memory.read? (access s).buf n.toNat = some v)
    (hother : ∀ c, c ≠ n.toNat → Memory.read? (access s).buf c = Memory.read? s.buf c) :
    Memory.read? (abandonedAccess n k s access).buf a =
      if 0 < k ∧ n.toNat < s.numLeds.toNat ∧ a = n.toNat then some v else Memory.read? s.buf a := by
  by_cases hmade : 0 < k ∧ n.toNat < s.numLeds.toNat
  · have haddr : s.addressable n.toNat = true := decide_eq_true (by omega)
    rw [abandonedAccess, if_pos ⟨by omega, hmade.2, haddr⟩]
    by_cases ha : a = n.toNat
    · rw [if_pos ⟨hmade.1, hmade.2, ha⟩, ha, hsame]
    · rw [if_neg fun h => ha h.2.2, hother a ha]
  · rw [abandonedAccess, if_neg fun h => hmade ⟨by omega, h.2.1⟩, if_neg fun h => hmade ⟨h.1, h.2.1⟩]

/-! ## What an abandoned command leaves in BUF, command by command (R231) -/

section
variable {w : Command} {k a : Nat} {s : State}

/-- BUF of an abandoned command is what the command has written of it. -/
theorem abandonCommand_buf_of_ok {i : Instr} (hd : decode w = .ok i) :
    (abandonCommand w k s).buf = (partlyDone i k s).buf := by
  rw [abandonCommand, hd]
  rfl

/-- A word that spells no command writes nothing. -/
theorem abandonCommand_buf_of_error {e : DecodeError} (hd : decode w = .error e) :
    (abandonCommand w k s).buf = s.buf := by
  rw [abandonCommand, hd]
  rfl

/-- A command that never writes BUF leaves it as it was. -/
theorem abandonCommand_buf_of_no_write {i : Instr} (hd : decode w = .ok i) (hi : writesBuffer i = false) :
    (abandonCommand w k s).buf = s.buf := by
  rw [abandonCommand_buf_of_ok hd, partlyDone_of_no_write k s hi]

/-- Before its first write a command leaves BUF as it was. -/
theorem abandonCommand_buf_of_zero : (abandonCommand w 0 s).buf = s.buf := by
  cases hd : decode w with
  | ok i => rw [abandonCommand_buf_of_ok hd, partlyDone_zero]
  | error e => exact abandonCommand_buf_of_error hd

/-- CLEAR has cleared the first `k` of its words (41_buffer.md R122). -/
theorem abandonCommand_clear_read (hd : decode w = .ok .clear) (hcap : s.numLeds.toNat ≤ s.cap.toNat) :
    Memory.read? (abandonCommand w k s).buf a =
      if a < k ∧ a < s.numLeds.toNat then some 0x8000 else Memory.read? s.buf a := by
  rw [abandonCommand_buf_of_ok hd, partlyDone, clearWords_read, Nat.min_eq_left hcap]
  simp only [Nat.lt_min, offPixel]

/-- INIT above C has written nothing (44_driver.md R180). -/
theorem abandonCommand_init_buf_of_above {n : Half} (hd : decode w = .ok (.init n)) (hn : s.cap.toNat < n.toNat) :
    (abandonCommand w k s).buf = s.buf := by
  rw [abandonCommand_buf_of_ok hd, partlyDone, if_pos hn]

/-- INIT up to C has cleared the first `k` of its words (R180). -/
theorem abandonCommand_init_read {n : Half} (hd : decode w = .ok (.init n)) (hn : n.toNat ≤ s.cap.toNat) :
    Memory.read? (abandonCommand w k s).buf a =
      if a < k ∧ a < n.toNat then some 0x8000 else Memory.read? s.buf a := by
  rw [abandonCommand_buf_of_ok hd, partlyDone, if_neg (Nat.not_lt.mpr hn), clearWords_read]
  simp only [Nat.lt_min, offPixel]

/-- SCALEALL has rewritten the first `k` of its words (42_scaler.md R147). -/
theorem abandonCommand_scaleall_buf {f : Half} (hd : decode w = .ok (.scaleall f))
    (hcap : s.numLeds.toNat ≤ s.cap.toNat) :
    (abandonCommand w k s).buf = (scaleWords (min k s.numLeds.toNat) f s).buf := by
  rw [abandonCommand_buf_of_ok hd, partlyDone, Nat.min_eq_left hcap]

/-- Each of those words is the scaling of one word: of the one written there, where one is (R62, R147). -/
theorem abandonCommand_scaleall_read_inside {f : Half} (hd : decode w = .ok (.scaleall f))
    (hcap : s.numLeds.toNat ≤ s.cap.toNat) (hk : a < k) (ha : a < s.numLeds.toNat) :
    ∃ v : Word, (∀ v', Memory.read? s.buf a = some v' → v = v') ∧
      Memory.read? (abandonCommand w k s).buf a =
        some (BitVec.ofNat 16 (Formula.scale v f (s.mode.toNat / 2))) := by
  obtain ⟨v, hv, hread⟩ := scaleWords_read_inside f s (Nat.lt_min.mpr ⟨hk, ha⟩)
  exact ⟨v, hv, by rw [abandonCommand_scaleall_buf hd hcap, hread, scaleWord_eq_ofNat]⟩

/-- The other words are as they were (R147). -/
theorem abandonCommand_scaleall_read_outside {f : Half} (hd : decode w = .ok (.scaleall f))
    (hcap : s.numLeds.toNat ≤ s.cap.toNat) (ha : k ≤ a ∨ s.numLeds.toNat ≤ a) :
    Memory.read? (abandonCommand w k s).buf a = Memory.read? s.buf a := by
  rw [abandonCommand_scaleall_buf hd hcap, scaleWords_read_outside f s (by omega)]

/-- SETRGB below NUMLEDS has stored its word if a write was made (41_buffer.md R123). -/
theorem abandonCommand_setrgb_read {n : Half} {r g b : Channel} (hd : decode w = .ok (.setrgb n r g b))
    (hcap : s.numLeds.toNat ≤ s.cap.toNat) :
    Memory.read? (abandonCommand w k s).buf a =
      if 0 < k ∧ n.toNat < s.numLeds.toNat ∧ a = n.toNat
      then some (BitVec.ofNat 16 (Formula.encode r g b (s.mode.toNat % 2))) else Memory.read? s.buf a := by
  rw [abandonCommand_buf_of_ok hd, partlyDone, ← encodePixel_eq_ofNat]
  exact abandonedAccess_read hcap (Memory.read_write_same s.buf _ _) fun _ => Memory.read_write_other s.buf _

/-- SETW below NUMLEDS has stored its word if a write was made (R124). -/
theorem abandonCommand_setw_read {n : Half} {word : Word} (hd : decode w = .ok (.setw n word))
    (hcap : s.numLeds.toNat ≤ s.cap.toNat) :
    Memory.read? (abandonCommand w k s).buf a =
      if 0 < k ∧ n.toNat < s.numLeds.toNat ∧ a = n.toNat
      then some (BitVec.ofNat 16 (32768 + word.toNat % 32768)) else Memory.read? s.buf a := by
  rw [abandonCommand_buf_of_ok hd, partlyDone, ← withStartBit_eq_ofNat]
  exact abandonedAccess_read hcap (Memory.read_write_same s.buf _ _) fun _ => Memory.read_write_other s.buf _

/-- SCALE1 below NUMLEDS has stored the scaling of the word it read if a write was made (42_scaler.md R146). -/
theorem abandonCommand_scale1_read {n f : Half} (hd : decode w = .ok (.scale1 n f))
    (hcap : s.numLeds.toNat ≤ s.cap.toNat) :
    Memory.read? (abandonCommand w k s).buf a =
      if 0 < k ∧ n.toNat < s.numLeds.toNat ∧ a = n.toNat
      then some (BitVec.ofNat 16 (Formula.scale (s.memRead n.toNat).1 f (s.mode.toNat / 2)))
      else Memory.read? s.buf a := by
  rw [abandonCommand_buf_of_ok hd, partlyDone, ← scaleWord_eq_ofNat]
  exact abandonedAccess_read hcap (scaleOne_read_same n f s) fun _ => scaleOne_read_other f s

end

/-- Settles O57: the state but BUF by `abandonCommand_state`, BUF command by command. -/
theorem rstDuringACommandLeavesItPartDone : Obligations.RstDuringACommandLeavesItPartDone := by
  intro s w waiting k moves hb hc he hcap
  have hstate := abandonCommand_state w k { s with cmds := waiting, env := moves }
  refine ⟨_, step_of_rstDuring hb hc he, congrArg State.numLeds hstate, congrArg State.mode hstate,
    congrArg State.err hstate, congrArg (·.seq.phase) hstate, congrArg State.rsp hstate, by rw [hstate]; rfl, ?zero,
    fun _ hd => abandonCommand_buf_of_error hd, fun _ hd hi => abandonCommand_buf_of_no_write hd hi,
    fun hd _ => abandonCommand_clear_read hd hcap, ?init, ?scaleall,
    fun _ _ _ _ hd _ => abandonCommand_setrgb_read hd hcap, fun _ _ hd _ => abandonCommand_setw_read hd hcap, ?scale1⟩
  case zero =>
    rintro rfl
    exact abandonCommand_buf_of_zero
  case init =>
    intro n hd
    exact ⟨fun hn => abandonCommand_init_buf_of_above hd hn, fun hn _ => abandonCommand_init_read hd hn⟩
  case scaleall =>
    intro f hd
    exact ⟨fun a => abandonCommand_scaleall_read_inside (s := { s with cmds := waiting, env := moves }) hd hcap,
      fun a ha => abandonCommand_scaleall_read_outside hd hcap ha⟩
  case scale1 =>
    intro n f hd
    exact ⟨_, fun v hv => memRead_word (s := { s with cmds := waiting, env := moves }) hv,
      fun a => abandonCommand_scale1_read hd hcap⟩

end Sys2Proof.Machine
end

section
/-! PROOFS. The statement of 70_reset_and_hazards.md about the end of a run (R241): which states are final, and that a
step from one is a wait or a move that brings no command, no response and no wire event. -/

namespace Sys2Proof.Machine

/-- No command of the run is left when none waits and none is still to be presented (log entry 25). -/
theorem commandsLeft_eq_false_iff (s : State) :
    s.commandsLeft = false ↔ s.cmds = [] ∧ ∀ w : Command, EnvMove.present w ∉ s.env := by
  have hany : s.env.any EnvMove.isPresent = false ↔ ∀ w : Command, EnvMove.present w ∉ s.env := by
    rw [List.any_eq_false]
    constructor
    · exact fun h w hw => h _ hw rfl
    · intro h m hm hp
      obtain ⟨w, rfl⟩ := (isPresent_iff m).mp hp
      exact h w hm
  rw [State.commandsLeft, Bool.or_eq_false_iff, hany]
  simp

/-- A final state in terms of the state's fields (R241). -/
theorem final_iff (s : State) : s.final = true ↔
    s.seq.phase = .idle ∧ s.rsp = none ∧ s.cmds = [] ∧ ∀ w : Command, EnvMove.present w ∉ s.env := by
  rw [State.final, Bool.and_eq_true, Bool.not_eq_true', Bool.not_eq_true', busy_eq_false_iff, commandsLeft_eq_false_iff,
    and_assoc]

/-- In an idle block with no response pending, a move of an outside agent is the presenting of a word, a reset, or
changes BUF at most: the serializer and the response port have nothing to hand over (R242, log entry 6). -/
theorem agentMove_cases_of_idle {m : EnvMove} {s t : State} (hb : s.busy = false) (h : agentMove m s = .next t) :
    (∃ w, m = .present w) ∨ t = s.rst ∨ t = { s with buf := t.buf } := by
  obtain ⟨hp, hr⟩ := (busy_eq_false_iff s).mp hb
  rcases agentMove_cases h with ⟨w, hm, -⟩ | ⟨-, rfl⟩ | ⟨fail, -, h⟩ | ⟨-, h⟩ | ⟨a, w, -, -, -, rfl⟩ |
    ⟨a, -, -, -, rfl⟩ | ⟨-, rfl⟩
  · exact .inl ⟨w, hm⟩
  · rcases takeResponse_cases s with ⟨-, ht⟩ | ⟨r, hsome, -⟩
    · rw [ht]
      exact .inr (.inr rfl)
    · cases hr.symm.trans hsome
  · have hnone : s.txPort = none := (txPort_eq_none_iff s).mpr (.inl hp)
    cases (transferStep_of_no_offer fail hnone).symm.trans h
    exact .inr (.inr rfl)
  · rcases delayStep_cases h with ⟨-, rfl⟩ | ⟨hwait, -⟩
    · exact .inr (.inr rfl)
    · cases hp.symm.trans hwait
  · exact .inr (.inr rfl)
  · exact .inr (.inr rfl)
  · exact .inr (.inl rfl)

/-- A step from a final state waits, or makes a move that is a reset or changes BUF at most. -/
theorem step_cases_of_final {s t : State} (hf : s.final = true) (ht : step s = .next t) :
    t = s ∨ ∃ m moves, s.env = m :: moves ∧
      (t = ({ s with env := moves } : State).rst ∨ t = { s with env := moves, buf := t.buf }) := by
  obtain ⟨hp, hr, hc, hpres⟩ := (final_iff s).mp hf
  cases he : s.env with
  | nil =>
    have hwait : step s = .next s := (step_of_no_command hc).trans (by rw [agentsStep, he])
    cases hwait.symm.trans ht
    exact .inl rfl
  | cons m moves =>
    have hmove := (step_of_move (.inr hc) he).symm.trans ht
    have hb := (busy_eq_false_iff { s with env := moves }).mpr ⟨hp, hr⟩
    rcases agentMove_cases_of_idle hb hmove with ⟨w, rfl⟩ | hcases
    · exact absurd (by rw [he]; exact List.mem_cons_self) (hpres w)
    · exact .inr ⟨m, moves, rfl, hcases⟩

/-- Settles O58: the fields that make a state final, and its record of the run, are kept by every such step. -/
theorem finalStateIsTheEndOfTheRun : Obligations.FinalStateIsTheEndOfTheRun := by
  refine ⟨final_iff, fun s t hf ht => ?_⟩
  obtain ⟨hp, hr, hc, hpres⟩ := (final_iff s).mp hf
  rcases step_cases_of_final hf ht with rfl | ⟨m, moves, he, hmove⟩
  · exact ⟨hf, rfl, rfl, hr⟩
  · have hrest : ∀ w, EnvMove.present w ∉ moves := fun w hw => hpres w (by rw [he]; exact List.mem_cons_of_mem m hw)
    rcases hmove with rfl | hbuf
    · exact ⟨(final_iff _).mpr ⟨rfl, rfl, hc, hrest⟩, rfl, rfl, rfl⟩
    · rw [hbuf]
      exact ⟨(final_iff _).mpr ⟨hp, hr, hc, hrest⟩, rfl, rfl, hr⟩

end Sys2Proof.Machine
end
